-- ==== Sys2Proof/Word.lean ====
section
/-! DEFINITION. The three bit-vector types of the engine (rules R5, R8). Every value is unsigned. -/

namespace Sys2Proof

/-- An opcode byte, an operand byte, a table byte, an algorithm id (rule R5: `BYTE_W`, `ALGO_W`). -/
abbrev Byte := BitVec 8

/-- A seed, a key, the running value (rule R5: `W = 16`). -/
abbrev Word := BitVec 16

/-- The step pointer's width (rule R14). -/
abbrev StepPtr := BitVec 3

end Sys2Proof
end

