-- ==== Sys2Proof/Config.lean ====
section
/-! DEFINITION. What an implementation fixes (the parameters of rules R5 and R6) and the free values.

The opcode map `OPC` is an ARGUMENT of the decoder and of the step relation (rules R6, R24, R49); its default, which
the spec supplies from general knowledge, is `defaultOpc` in `Decode.lean`. -/

namespace Sys2Proof

namespace Config

/-- Steps per program (rule R5, `STEPS`). -/
def steps : Nat := 4

/-- Bytes per step: opcode, hh, ll (rule R5, `STEP_BYTES`). -/
def stepBytes : Nat := 3

/-- Bytes of the table per algorithm id, 3 × 4 + 1 (rule R5, `STRIDE`). -/
def stride : Nat := 13

/-- Size of the table space, 256 × 13 (rules R5, R28, `TABLE_BYTES`). -/
def tableBytes : Nat := 3328

/-- What `acc` holds after a RESET transition: rule R25 leaves it unspecified, so it is a free value of the draw's
number. DESIGN CHOICE (log 3): of nothing else, so engines with equal draw counters agree on it. -/
opaque freeAcc : Nat → Word

/-- What `sp` holds after a RESET transition (rule R25; log 3). -/
opaque freeSp : Nat → StepPtr

/-- What `algo_r` holds after a RESET transition (rule R25; log 3). -/
opaque freeAlgo : Nat → Byte

/-- What the port `key` shows while `done = 0` (rule R20, U8). DESIGN CHOICE (log 6): of the draw's number alone. -/
opaque freeKey : Nat → Word

/-- What the 12-bit port `tbl_addr` shows outside an EXEC transition (rule R20, U10). DESIGN CHOICE (log 7): of the
draw's number alone. -/
opaque freeTblAddr : Nat → BitVec 12

end Config

/-- The eleven names of the closed operation tag, in the source's order (rule R49). -/
inductive OpName where
  | flip | add | cpl | andf | rol | orf | ror | addf | fcadd | sub | subf
deriving DecidableEq, Repr

/-- All eleven names (rule R5, `N_OPS`). -/
def OpName.all : List OpName :=
  [.flip, .add, .cpl, .andf, .rol, .orf, .ror, .addf, .fcadd, .sub, .subf]

/-- The opcode map `OPC` as plain data: one byte per operation name (rule R49). -/
structure OpcMap where
  flip  : Byte
  add   : Byte
  cpl   : Byte
  andf  : Byte
  rol   : Byte
  orf   : Byte
  ror   : Byte
  addf  : Byte
  fcadd : Byte
  sub   : Byte
  subf  : Byte
deriving DecidableEq, Repr

/-- `OPC` as a map from names to bytes (rule R49). -/
def OpcMap.byte (opc : OpcMap) : OpName → Byte
  | .flip => opc.flip
  | .add => opc.add
  | .cpl => opc.cpl
  | .andf => opc.andf
  | .rol => opc.rol
  | .orf => opc.orf
  | .ror => opc.ror
  | .addf => opc.addf
  | .fcadd => opc.fcadd
  | .sub => opc.sub
  | .subf => opc.subf

/-- "No two operations share a value" (rule R49: `OPC` is injective). -/
abbrev OpcMap.Injective (opc : OpcMap) : Prop := (OpName.all.map opc.byte).Nodup

end Sys2Proof
end

