-- ==== Sys2Proof/Machine/State.lean ====
section
/-! DEFINITION. The state of the engine, its reset value, and the reasons a step or a host move can stop. -/

namespace Sys2Proof.Machine

/-- The state of `program_interpreter_fsm` (rule R16). -/
inductive FsmState where
  /-- No run since reset. -/
  | idle
  /-- A run is in progress. -/
  | run
  /-- The last run has finished and `acc` holds its key. -/
  | done
deriving DecidableEq, Repr

/-- The table space (rule R28) as (address, byte) pairs in canonical form: addresses strictly rising and inside
0..3327, no entry 0x00, since an unlisted address reads as 0x00 (log 5). -/
abbrev Memory := List Host.Cell

/-- Everything the spec gives the machine. -/
structure State where
  /-- R16, the interpreter's state. -/
  st     : FsmState
  /-- R13, the accumulator: the running value. -/
  acc    : Word
  /-- R14, the step pointer, the engine's program counter. -/
  sp     : StepPtr
  /-- R15, the latched algorithm id. -/
  algoR  : Byte
  /-- R28, the content `T` of the table space; a parameter of the step relation (R24), held here (log 1). -/
  mem    : Memory
  /-- R19, the level on input port `rst`. -/
  rst    : Bool
  /-- R19, the level on input port `start`. -/
  start  : Bool
  /-- R19, the value on input port `seed_in`. -/
  seedIn : Word
  /-- R19, the value on input port `algo_in`. -/
  algoIn : Byte
  /-- The model's own: how many free values have been drawn (log 3). -/
  draws  : Nat
deriving DecidableEq, Repr

/-- Why the engine's own step stops. The spec gives the engine no exception (R99). -/
inductive Fault where
  /-- Raised by `tblRead`: a read of the table space outside 0..3327, which rule R31 does not define. Safe: no
  reachable state requests such an address (R32; log 8). -/
  | tableAddress (addr : Nat)
deriving DecidableEq, Repr

/-- Why something is turned away at the engine's boundary. -/
inductive Refusal where
  /-- An arm of `exec` without a meaning. No arm answers it: every instruction is modelled. Safe. -/
  | notModelled (mnemonic : String)
  /-- Raised by the host move that connects a table whose byte list is not 3328 long (R43, U1; log 15). Safe. -/
  | tableLength (length : Nat)
  /-- Raised by the host move that programs one byte at an address outside 0..3327 (R28, R31; log 8). Safe. -/
  | noSuchTableByte (addr : Nat)
  /-- Raised by the host moves that change the table while `st = RUN`: the host has no such move (R41, R115, U7;
  log 14). Unsafe: a claim says nothing of a system that changes the table during a run. -/
  | tableChangeInRun
deriving DecidableEq, Repr

/-- The engine right after reset (R25): `st = IDLE`. The spec gives `acc`, `sp`, `algo_r` no reset value; zero is the
model's DESIGN CHOICE (log 2), as are the quiet input ports (log 4) and the all-zero table (log 5). -/
def State.reset : State where
  st     := .idle
  acc    := 0
  sp     := 0
  algoR  := 0
  mem    := []
  rst    := false
  start  := false
  seedIn := 0
  algoIn := 0
  draws  := 0

end Sys2Proof.Machine
end

