-- ==== Sys2Proof/Machine/Flags.lean ====
section
/-! DEFINITION. The engine has no condition codes: no carry, overflow, zero or sign flag (rule R17). What the spec has
in their place stands here: the operand-byte comparison that CPL and FCADD make and leave nowhere (rules R17, R65), and
the two status bits the host sees (rules R18, R20). -/

namespace Sys2Proof.Machine

/-- `hh < ll` on unsigned bytes (R65; D5, log 10). -/
def byteLt (hh ll : Byte) : Bool := decide (hh.toNat < ll.toNat)

/-- `hh >= ll` on unsigned bytes (R65; D5, log 10). -/
def byteGe (hh ll : Byte) : Bool := decide (ll.toNat ≤ hh.toNat)

/-- Output port `busy`: 1 exactly when `st = RUN` (R20). -/
def busy (s : State) : Bool := decide (s.st = .run)

/-- Output port `done`: 1 exactly when `st = DONE` (R20). -/
def done (s : State) : Bool := decide (s.st = .done)

end Sys2Proof.Machine
end

