-- ==== Sys2Proof/Machine/Operands.lean ====
section
/-! DEFINITION. Operand forms: how the two operand bytes become a 16-bit operand or a rotate amount (rules R8, R47,
R61, R64), and the table addresses of a step (rule R29). -/

namespace Sys2Proof.Machine

/-- `v[15:8]`, the high byte (R8). -/
def hiByte (v : Word) : Byte := v.extractLsb' 8 8

/-- `v[7:0]`, the low byte (R8). -/
def loByte (v : Word) : Byte := v.extractLsb' 0 8

/-- Natural order, `hh ++ ll` (R61). -/
def natOperand (hh ll : Byte) : Word := hh ++ ll

/-- Flipped order, `ll ++ hh` (R61). -/
def flpOperand (hh ll : Byte) : Word := ll ++ hh

/-- A rotate amount: the operand byte modulo 16, its low nibble (R64). -/
def rotAmount (b : Byte) : BitVec 4 := b.extractLsb' 0 4

end Sys2Proof.Machine
end

