-- ==== Sys2Proof/Machine/Datapath.lean ====
section
/-! DEFINITION. The combinational block `16bit_operation_datapath`: the primitive functions (rules R57 to R63), one
pure function per operation (rules R71 to R82) and their selection by the opcode byte (rules R56, R70). -/

namespace Sys2Proof.Machine

/-- `(a + b) mod 65536`; the carry is discarded (R57). -/
def add16 (a b : Word) : Word := a + b

/-- The residue of `a − b` modulo 65536; the borrow is discarded (R58). -/
def sub16 (a b : Word) : Word := a - b

/-- `65535 − v`, every bit inverted (R59). -/
def not16 (v : Word) : Word := ~~~v

/-- `lo(v) ++ hi(v)` (R60). -/
def swap16 (v : Word) : Word := loByte v ++ hiByte v

/-- Rotation left by 0..15; it never shifts by 16 (R62). -/
def rotl16 (v : Word) (n : BitVec 4) : Word :=
  if n = 0 then v else (v <<< n.toNat) ||| (v >>> (16 - n.toNat))

/-- Rotation right by 0..15; it never shifts by 16 (R63). -/
def rotr16 (v : Word) (n : BitVec 4) : Word :=
  if n = 0 then v else (v >>> n.toNat) ||| (v <<< (16 - n.toNat))

/-- `Flip(v, hh, ll)` (R71). -/
def opFlip (v : Word) (_hh _ll : Byte) : Word := swap16 v

/-- `Add(v, hh, ll)` (R72). -/
def opAdd (v : Word) (hh ll : Byte) : Word := add16 v (natOperand hh ll)

/-- `Cpl(v, hh, ll)`: strict comparison, a tie gives the one's complement (R73). -/
def opCpl (v : Word) (hh ll : Byte) : Word :=
  if byteLt hh ll then add16 (not16 v) 1 else not16 v

/-- `Andf(v, hh, ll)` (R74). -/
def opAndf (v : Word) (hh ll : Byte) : Word := v &&& flpOperand hh ll

/-- `Rol(v, hh, ll)`: the amount comes from `hh` (R75). -/
def opRol (v : Word) (hh _ll : Byte) : Word := rotl16 v (rotAmount hh)

/-- `Orf(v, hh, ll)` (R76). -/
def opOrf (v : Word) (hh ll : Byte) : Word := v ||| flpOperand hh ll

/-- `Ror(v, hh, ll)`: the amount comes from `ll` (R77). -/
def opRor (v : Word) (_hh ll : Byte) : Word := rotr16 v (rotAmount ll)

/-- `Addf(v, hh, ll)` (R78). -/
def opAddf (v : Word) (hh ll : Byte) : Word := add16 v (flpOperand hh ll)

/-- `Fcadd(v, hh, ll)`: the byte swap happens on both arms, before the addition (R79). -/
def opFcadd (v : Word) (hh ll : Byte) : Word :=
  if byteGe hh ll then add16 (swap16 v) (natOperand hh ll) else add16 (swap16 v) (flpOperand hh ll)

/-- `Sub(v, hh, ll)` (R80). -/
def opSub (v : Word) (hh ll : Byte) : Word := sub16 v (natOperand hh ll)

/-- `Subf(v, hh, ll)` (R81). -/
def opSubf (v : Word) (hh ll : Byte) : Word := sub16 v (flpOperand hh ll)

/-- `Nop(v, hh, ll)` (R82). -/
def opNop (v : Word) (_hh _ll : Byte) : Word := v

/-- `Exec(op, v, hh, ll)` (R70): the output of the datapath, the rule's chain of tests in the rule's order. -/
def execValue (opc : OpcMap) (op : Byte) (v : Word) (hh ll : Byte) : Word :=
  if op = opc.flip then opFlip v hh ll
  else if op = opc.add then opAdd v hh ll
  else if op = opc.cpl then opCpl v hh ll
  else if op = opc.andf then opAndf v hh ll
  else if op = opc.rol then opRol v hh ll
  else if op = opc.orf then opOrf v hh ll
  else if op = opc.ror then opRor v hh ll
  else if op = opc.addf then opAddf v hh ll
  else if op = opc.fcadd then opFcadd v hh ll
  else if op = opc.sub then opSub v hh ll
  else if op = opc.subf then opSubf v hh ll
  else opNop v hh ll

end Sys2Proof.Machine
end

