-- ==== Sys2Proof/Machine/Ops.lean ====
section
/-! DEFINITION. The named operations over the table space and the registers.

There is no exception to take and none to return from: the set of exception causes is empty and nothing is saved
(rules R99, R106). What enters and leaves a run is START and the last EXEC or BYPASS (`Transitions.lean`). -/

namespace Sys2Proof.Machine

/-- `base(a) = a * 13`, in natural numbers (R29). -/
def baseAddr (a : Byte) : Nat := a.toNat * Config.stride

/-- `opaddr(a, i) = a * 13 + i * 3`, the opcode byte of step `i` (R29). -/
def opAddr (a : Byte) (i : Nat) : Nat := baseAddr a + i * Config.stepBytes

/-- `hhaddr(a, i)` (R29). -/
def hhAddr (a : Byte) (i : Nat) : Nat := opAddr a i + 1

/-- `lladdr(a, i)` (R29). -/
def llAddr (a : Byte) (i : Nat) : Nat := opAddr a i + 2

/-- `padaddr(a) = a * 13 + 12`, the padding byte (R29). -/
def padAddr (a : Byte) : Nat := baseAddr a + Config.steps * Config.stepBytes

/-- The byte an address holds; an unlisted address reads as 0x00 (log 5). -/
def Memory.byteAt : Memory → Nat → Byte
  | [], _ => 0
  | (b, x) :: rest, a => if b = a then x else Memory.byteAt rest a

/-- `TblRead(addr)` (R31): defined on 0..3327, no side effect. Outside, rule R31 leaves it undefined: a fault (log 8). -/
def tblRead (m : Memory) (a : Nat) : Except Fault Byte :=
  if a < Config.tableBytes then .ok (m.byteAt a) else .error (.tableAddress a)

/-- Put an entry before a table whose entries lie at higher addresses; 0x00 is never listed. -/
def Memory.putCell (a : Nat) (x : Byte) (rest : Memory) : Memory := if x = 0 then rest else (a, x) :: rest

/-- Program one byte of the table memory, an act of the table provider and never of the engine (R30, R41). The
canonical form is kept: writing 0x00 removes the entry. -/
def Memory.write : Memory → Nat → Byte → Memory
  | [], a, x => Memory.putCell a x []
  | (b, y) :: rest, a, x =>
    if b < a then (b, y) :: Memory.write rest a x
    else if b = a then Memory.putCell a x rest
    else Memory.putCell a x ((b, y) :: rest)

/-- The canonical form from address `lo` on. -/
def Memory.wfFrom : Nat → Memory → Bool
  | _, [] => true
  | lo, (a, x) :: rest =>
    decide (lo ≤ a) && decide (a < Config.tableBytes) && decide (x ≠ 0) && Memory.wfFrom (a + 1) rest

/-- The table space is in canonical form: addresses strictly rising, inside 0..3327 (R28), no entry 0x00. -/
def Memory.wf (m : Memory) : Bool := Memory.wfFrom 0 m

/-- The table memory whose byte at `lo + k` is the `k`-th of the list (R46). -/
def Memory.ofBytesFrom : Nat → List Byte → Memory
  | _, [] => []
  | lo, x :: rest => Memory.putCell lo x (Memory.ofBytesFrom (lo + 1) rest)

/-- The table memory built from a list of bytes, which must have exactly 3328 of them (R43). -/
def Memory.ofBytes (bytes : List Byte) : Except Refusal Memory :=
  if bytes.length = Config.tableBytes then .ok (Memory.ofBytesFrom 0 bytes)
  else .error (.tableLength bytes.length)

/-- What EXEC writes (R87), the same for all twelve instructions: the result goes to `acc`, `sp` advances, and the step
with old `sp = 3` ends the run. `sp + 1` wraps at 3 bits only from a value no run reaches (R14; log 11). -/
def State.retire (s : State) (v : Word) : State :=
  { s with acc := v, sp := s.sp + 1, st := if s.sp = 3 then .done else .run }

end Sys2Proof.Machine
end

