-- ==== Sys2Proof/Machine/Arith.lean ====
section
/-! DEFINITION. The meanings of ADD, ADDF, FCADD, SUB, SUBF (rules R72, R78 to R81): the datapath's value for the
instruction goes to `acc` and the step retires (rule R87). -/

namespace Sys2Proof.Machine

/-- ADD (R72). -/
def execAdd (hh ll : Byte) (s : State) : Host.Outcome State Fault Refusal :=
  .next (s.retire (opAdd s.acc hh ll))

/-- ADDF (R78). -/
def execAddf (hh ll : Byte) (s : State) : Host.Outcome State Fault Refusal :=
  .next (s.retire (opAddf s.acc hh ll))

/-- FCADD (R79). -/
def execFcadd (hh ll : Byte) (s : State) : Host.Outcome State Fault Refusal :=
  .next (s.retire (opFcadd s.acc hh ll))

/-- SUB (R80). -/
def execSub (hh ll : Byte) (s : State) : Host.Outcome State Fault Refusal :=
  .next (s.retire (opSub s.acc hh ll))

/-- SUBF (R81). -/
def execSubf (hh ll : Byte) (s : State) : Host.Outcome State Fault Refusal :=
  .next (s.retire (opSubf s.acc hh ll))

end Sys2Proof.Machine
end

