-- ==== Sys2Proof/Machine/Logic.lean ====
section
/-! DEFINITION. The meanings of CPL, ANDF, ORF (rules R73, R74, R76): the datapath's value for the
instruction goes to `acc` and the step retires (rule R87). -/

namespace Sys2Proof.Machine

/-- CPL (R73). -/
def execCpl (hh ll : Byte) (s : State) : Host.Outcome State Fault Refusal :=
  .next (s.retire (opCpl s.acc hh ll))

/-- ANDF (R74). -/
def execAndf (hh ll : Byte) (s : State) : Host.Outcome State Fault Refusal :=
  .next (s.retire (opAndf s.acc hh ll))

/-- ORF (R76). -/
def execOrf (hh ll : Byte) (s : State) : Host.Outcome State Fault Refusal :=
  .next (s.retire (opOrf s.acc hh ll))

end Sys2Proof.Machine
end

