-- ==== Sys2Proof/Machine/Nop.lean ====
section
/-! DEFINITION. The meaning of the unknown-opcode identity step (rule R82). -/

namespace Sys2Proof.Machine

/-- NOP (R82): `acc` is unchanged whatever the unknown opcode byte, and the step still counts as one of the four. -/
def execNop (_op hh ll : Byte) (s : State) : Host.Outcome State Fault Refusal :=
  .next (s.retire (opNop s.acc hh ll))

end Sys2Proof.Machine
end

