-- ==== Sys2Proof/Machine/Rotate.lean ====
section
/-! DEFINITION. The meanings of FLIP, ROL, ROR (rules R71, R75, R77): the datapath's value for the
instruction goes to `acc` and the step retires (rule R87). -/

namespace Sys2Proof.Machine

/-- FLIP (R71). -/
def execFlip (hh ll : Byte) (s : State) : Host.Outcome State Fault Refusal :=
  .next (s.retire (opFlip s.acc hh ll))

/-- ROL (R75). -/
def execRol (hh ll : Byte) (s : State) : Host.Outcome State Fault Refusal :=
  .next (s.retire (opRol s.acc hh ll))

/-- ROR (R77). -/
def execRor (hh ll : Byte) (s : State) : Host.Outcome State Fault Refusal :=
  .next (s.retire (opRor s.acc hh ll))

end Sys2Proof.Machine
end

