-- ==== Sys2Proof/Syntax.lean ====
section
/-! DEFINITION. The step ISA: one constructor per row of `spec/opcode_table.json` (rules R44, R71 to R82). -/

namespace Sys2Proof

/-- One ProgramStep, decoded. Every instruction carries both operand bytes `hh`, `ll` whether or not it uses them
(rule R44). The catch-all `nop` also carries its opcode byte, which is any byte outside the image of `OPC`
(rule R82); the check is in `WellFormed.lean`. -/
inductive Instr where
  | flip  (hh ll : Byte)        -- R71, swap the bytes of acc
  | add   (hh ll : Byte)        -- R72, add hh ++ ll
  | cpl   (hh ll : Byte)        -- R73, complement, plus 1 if hh < ll
  | andf  (hh ll : Byte)        -- R74, and with ll ++ hh
  | rol   (hh ll : Byte)        -- R75, rotate left by hh mod 16
  | orf   (hh ll : Byte)        -- R76, or with ll ++ hh
  | ror   (hh ll : Byte)        -- R77, rotate right by ll mod 16
  | addf  (hh ll : Byte)        -- R78, add ll ++ hh
  | fcadd (hh ll : Byte)        -- R79, swap, then add the larger reading
  | sub   (hh ll : Byte)        -- R80, subtract hh ++ ll
  | subf  (hh ll : Byte)        -- R81, subtract ll ++ hh
  | nop   (op hh ll : Byte)     -- R82, unknown opcode: identity
deriving DecidableEq, Repr

end Sys2Proof
end

