-- ==== Sys2Proof/Machine/Dispatch.lean ====
section
/-! DEFINITION. One arm per constructor of Instr, each one direct call of its meaning. -/

namespace Sys2Proof.Machine

def exec (i : Instr) (s : State) : Host.Outcome State Fault Refusal :=
  match i with
  | .flip hh ll => Sys2Proof.Machine.execFlip hh ll s
  | .add hh ll => Sys2Proof.Machine.execAdd hh ll s
  | .cpl hh ll => Sys2Proof.Machine.execCpl hh ll s
  | .andf hh ll => Sys2Proof.Machine.execAndf hh ll s
  | .rol hh ll => Sys2Proof.Machine.execRol hh ll s
  | .orf hh ll => Sys2Proof.Machine.execOrf hh ll s
  | .ror hh ll => Sys2Proof.Machine.execRor hh ll s
  | .addf hh ll => Sys2Proof.Machine.execAddf hh ll s
  | .fcadd hh ll => Sys2Proof.Machine.execFcadd hh ll s
  | .sub hh ll => Sys2Proof.Machine.execSub hh ll s
  | .subf hh ll => Sys2Proof.Machine.execSubf hh ll s
  | .nop op hh ll => Sys2Proof.Machine.execNop op hh ll s

end Sys2Proof.Machine
end

