-- ==== Sys2Proof/WellFormed.lean ====
section
/-! DEFINITION. Which instruction terms a step of the table can spell. The operand bytes are free (rule R51); the one
check is that `nop` carries an opcode byte that `OPC` gives to no operation (rules R48, R82). -/

namespace Sys2Proof

/-- `op` is one of the eleven known byte values of `opc` (rule R49). -/
def OpcMap.known (opc : OpcMap) (op : Byte) : Bool := OpName.all.any fun n => opc.byte n == op

/-- The instruction is the reading of some step word under `opc`. -/
def Instr.wellFormed (opc : OpcMap) : Instr → Bool
  | .flip _ _ => true
  | .add _ _ => true
  | .cpl _ _ => true
  | .andf _ _ => true
  | .rol _ _ => true
  | .orf _ _ => true
  | .ror _ _ => true
  | .addf _ _ => true
  | .fcadd _ _ => true
  | .sub _ _ => true
  | .subf _ _ => true
  | .nop op _ _ => !opc.known op

end Sys2Proof
end

