-- ==== Sys2Proof/Decode.lean ====
section
/-! DEFINITION. The decoder, total on any bytes, and the encoder (rules R44, R48, R49). -/

namespace Sys2Proof

/-- The default opcode bytes of rule R49. PRESUMED: the spec marks the whole column
`[from general knowledge, not in source]` (D4, G1; log 9). -/
def defaultOpc : OpcMap where
  flip  := 0x05
  add   := 0x14
  cpl   := 0x2A
  andf  := 0x37
  rol   := 0x4C
  orf   := 0x52
  ror   := 0x6B
  addf  := 0x75
  fcadd := 0x7E
  sub   := 0x98
  subf  := 0xF8

/-- The operation an opcode byte names, if it is one of the eleven known values (rule R48). -/
def OpcMap.lookup (opc : OpcMap) (op : Byte) : Option OpName :=
  OpName.all.find? fun n => opc.byte n == op

/-- The instruction of a known operation with its operand bytes. -/
def Instr.ofName : OpName → Byte → Byte → Instr
  | .flip, hh, ll => .flip hh ll
  | .add, hh, ll => .add hh ll
  | .cpl, hh, ll => .cpl hh ll
  | .andf, hh, ll => .andf hh ll
  | .rol, hh, ll => .rol hh ll
  | .orf, hh, ll => .orf hh ll
  | .ror, hh, ll => .ror hh ll
  | .addf, hh, ll => .addf hh ll
  | .fcadd, hh, ll => .fcadd hh ll
  | .sub, hh, ll => .sub hh ll
  | .subf, hh, ll => .subf hh ll

/-- Rule R48: the reading of one step. `hh` and `ll` never change which operation is selected, and every opcode byte
has a reading. -/
def decodeStep (opc : OpcMap) (op hh ll : Byte) : Instr :=
  match opc.lookup op with
  | some n => Instr.ofName n hh ll
  | none => .nop op hh ll

/-- Why bytes are no step. -/
inductive DecodeError where
  /-- Fewer than three bytes are left; every instruction is exactly three bytes (rule R44). -/
  | truncated
deriving DecidableEq, Repr

/-- The decoder on bytes in ascending address order: the first step and the bytes after it. It reads three bytes
without looking at them (rule R48) and refuses only what is shorter than a step. -/
def decode (opc : OpcMap) : List Byte → Except DecodeError (Instr × List Byte)
  | op :: hh :: ll :: rest => .ok (decodeStep opc op hh ll, rest)
  | [_, _] => .error .truncated
  | [_] => .error .truncated
  | [] => .error .truncated

/-- The three bytes of an instruction in ascending address order: opcode byte, `hh`, `ll` (rule R44). -/
def encode (opc : OpcMap) : Instr → List Byte
  | .flip hh ll => [opc.flip, hh, ll]
  | .add hh ll => [opc.add, hh, ll]
  | .cpl hh ll => [opc.cpl, hh, ll]
  | .andf hh ll => [opc.andf, hh, ll]
  | .rol hh ll => [opc.rol, hh, ll]
  | .orf hh ll => [opc.orf, hh, ll]
  | .ror hh ll => [opc.ror, hh, ll]
  | .addf hh ll => [opc.addf, hh, ll]
  | .fcadd hh ll => [opc.fcadd, hh, ll]
  | .sub hh ll => [opc.sub, hh, ll]
  | .subf hh ll => [opc.subf, hh, ll]
  | .nop op hh ll => [op, hh, ll]

/-- The step word `Wd = op ++ hh ++ ll` (rule R44): the lowest-addressed byte in the top bits. -/
def stepWord (op hh ll : Byte) : BitVec 24 := op ++ hh ++ ll

/-- The bits the opcode table gives a row, the rest of the 24-bit step word being 0 (log 13). -/
def tableWord (nbits w : Nat) : Nat := w % 2 ^ nbits

/-- The three bytes, by ascending address, of the step whose step word is `tableWord nbits w`: the table numbers a
row's bits as rule R44 does, `op` in 23:16, `hh` in 15:8, `ll` in 7:0 (log 13). -/
def tableWordBytes (nbits w : Nat) : Byte × Byte × Byte :=
  (BitVec.ofNat 8 (tableWord nbits w / 65536), BitVec.ofNat 8 (tableWord nbits w / 256),
    BitVec.ofNat 8 (tableWord nbits w))

/-- The instruction the decoder reads from the step word `w`; a number of more than 24 bits is no step word. -/
def decodeTableWord (nbits w : Nat) : Option Instr :=
  if tableWord nbits w < 2 ^ 24 then
    match decode defaultOpc
        [(tableWordBytes nbits w).1, (tableWordBytes nbits w).2.1, (tableWordBytes nbits w).2.2] with
    | .ok (i, _) => some i
    | .error _ => none
  else none

end Sys2Proof
end

