-- ==== Sys2Proof/Machine/Transitions.lean ====
section
/-! DEFINITION. The transitions of `program_interpreter_fsm` other than the instruction's own effect: RESET, START,
BYPASS, EXEC's fetch, and which of them the state enables (rules R85 to R90, R110). -/

namespace Sys2Proof.Machine

/-- The arms of the step relation (R90). -/
inductive Transition where
  | reset | bypass | execStep | start | quiet
deriving DecidableEq, Repr

/-- Which arm applies: `rst` wins, then the engine's own transition, then `start` (R90, R103). -/
def enabled (s : State) : Transition :=
  if s.rst then .reset
  else if s.st = .run then (if s.algoR = 0 then .bypass else .execStep)
  else if s.start then .start
  else .quiet

/-- RESET (R110): `st <- IDLE`; `acc`, `sp`, `algo_r` hold no value afterwards, so each takes a free value, fresh by
the draw counter. The table is outside the engine and stays.

DESIGN CHOICE, unsafe (log 3): the free values depend on `draws` alone, so two engines with equal counters (R108), or two
runs of the model, hold equal `acc`, `sp`, `algo_r` after a RESET. The spec relates no such values; of
the statements only `EnginesDoNotInteract` rests on an equality of this kind, between one engine beside others and
alone. -/
def takeReset (s : State) : State :=
  { s with
    st := .idle, acc := Config.freeAcc s.draws, sp := Config.freeSp s.draws, algoR := Config.freeAlgo s.draws,
    draws := s.draws + 1 }

/-- START (R85): the one transition that samples `seed_in` and `algo_in`. -/
def takeStart (s : State) : State :=
  { s with acc := s.seedIn, algoR := s.algoIn, sp := 0, st := .run }

/-- BYPASS (R86): always the pure complement; no table read; `sp` is left. -/
def takeBypass (s : State) : State :=
  { s with acc := not16 s.acc, st := .done }

/-- `A = algo_r × 13 + sp × 3`, in natural numbers (R87). -/
def fetchAddr (s : State) : Nat := opAddr s.algoR s.sp.toNat

/-- EXEC's fetch (R87): the three bytes at `A`, `A + 1`, `A + 2`, all read for every opcode, and their reading. -/
def fetchStep (opc : OpcMap) (s : State) : Except Fault Instr :=
  match tblRead s.mem (fetchAddr s) with
  | .error f => .error f
  | .ok op =>
    match tblRead s.mem (fetchAddr s + 1) with
    | .error f => .error f
    | .ok hh =>
      match tblRead s.mem (fetchAddr s + 2) with
      | .error f => .error f
      | .ok ll => .ok (decodeStep opc op hh ll)

/-- The state in which the next step fetches the step `op`, `hh`, `ll`: the table provider has placed the three bytes
where the engine fetches, and a run is in progress there with `rst` low. An engine that is not at such a point is put
into step 0 of algorithm id 1, or of the id it has latched if that is not 0 (log 12). -/
def placeStep (s : State) (op hh ll : Byte) : State :=
  let a : Byte := if s.algoR = 0 then 1 else s.algoR
  let i : StepPtr := if s.st = .run ∧ s.algoR ≠ 0 ∧ s.sp.toNat < Config.steps then s.sp else 0
  let addr := opAddr a i.toNat
  { s with
    st := .run, sp := i, algoR := a, rst := false,
    mem := ((s.mem.write addr op).write (addr + 1) hh).write (addr + 2) ll }

end Sys2Proof.Machine
end

