-- ==== Sys2Proof/Machine/Step.lean ====
section
/-! DEFINITION. The step relation (rule R90) as one deterministic function of the state, for any opcode map, and the
step of the engine with the default map. -/

namespace Sys2Proof.Machine

/-- One architectural transition (R7, R90) of an engine built with the opcode map `opc`. -/
def stepWith (opc : OpcMap) (s : State) : Host.Outcome State Fault Refusal :=
  match enabled s with
  | .reset => .next (takeReset s)
  | .bypass => .next (takeBypass s)
  | .execStep =>
    match fetchStep opc s with
    | .ok i => exec i s
    | .error f => .fault f
  | .start => .next (takeStart s)
  | .quiet => .next s

/-- One transition of the engine built with the default opcode map (log 9). -/
def step (s : State) : Host.Outcome State Fault Refusal := stepWith defaultOpc s

/-- `s` with the instruction whose step word is `w` stored where the next step fetches (log 12, log 13). -/
def State.withFetchWord (s : State) (nbits w : Nat) : State :=
  placeStep s (tableWordBytes nbits w).1 (tableWordBytes nbits w).2.1 (tableWordBytes nbits w).2.2

end Sys2Proof.Machine
end

