-- ==== Sys2Proof/Machine/Asm.lean ====
section
/-! DEFINITION. The assembler of rules R54 and R55: instruction lines, raw `.step` lines, blocks, a whole table; the
pseudo-instructions; disassembly of a step. Lines are data here; program text is read and written in `AsmText.lean`. -/

namespace Sys2Proof.Machine

/-- One line of a block (R54). -/
inductive Line where
  /-- `<MNEMONIC> <hh>, <ll>`. -/
  | known (n : OpName) (hh ll : Byte)
  /-- `.step <op>, <hh>, <ll>`, whatever `op` is. -/
  | raw (op hh ll : Byte)
deriving DecidableEq, Repr

/-- The pseudo-instructions (R55). -/
inductive Pseudo where
  | flip
  | rol (n : Byte)
  | ror (n : Byte)
  | not
  | neg
  | nop
deriving DecidableEq, Repr

/-- `.algo <a>`, four lines, `.pad <p>` (R54). -/
structure Block where
  algo : Byte
  l0   : Line
  l1   : Line
  l2   : Line
  l3   : Line
  pad  : Byte := 0x00
deriving DecidableEq, Repr

/-- The three bytes a line assembles to (R54). -/
def Line.bytes (opc : OpcMap) : Line → List Byte
  | .known n hh ll => [opc.byte n, hh, ll]
  | .raw op hh ll => [op, hh, ll]

/-- `NOP_BYTE`, the smallest byte value not in the image of `OPC` (R55). -/
def nopByte (opc : OpcMap) : Byte :=
  BitVec.ofNat 8 (((List.range 256).find? fun b => !opc.known (BitVec.ofNat 8 b)).getD 0)

/-- The expansion of a pseudo-instruction (R55). -/
def Pseudo.expand (opc : OpcMap) : Pseudo → Line
  | .flip => .known .flip 0x00 0x00
  | .rol n => .known .rol n 0x00
  | .ror n => .known .ror 0x00 n
  | .not => .known .cpl 0x00 0x00
  | .neg => .known .cpl 0x00 0x01
  | .nop => .raw (nopByte opc) 0x00 0x00

/-- The thirteen bytes of a block: four steps and the padding byte (R45, R54). -/
def Block.bytes (opc : OpcMap) (b : Block) : List Byte :=
  b.l0.bytes opc ++ b.l1.bytes opc ++ b.l2.bytes opc ++ b.l3.bytes opc ++ [b.pad]

/-- The bytes a program text gives algorithm id `a`: its block, or thirteen 0x00 bytes (R54). -/
def blockBytes (opc : OpcMap) (prog : List Block) (a : Byte) : List Byte :=
  match prog.find? fun b => b.algo == a with
  | some b => b.bytes opc
  | none => List.replicate Config.stride 0x00

/-- The 3328 bytes of the table a program text assembles to, blocks in ascending order of algorithm id (R46, R54). A
text with two blocks for one id has no meaning in R54 and gives none (log 18). -/
def assemble (opc : OpcMap) (prog : List Block) : Option (List Byte) :=
  if (prog.map Block.algo).Nodup then
    some ((List.range 256).flatMap fun a => blockBytes opc prog (BitVec.ofNat 8 a))
  else none

/-- Disassembly of a step: the mnemonic of its opcode byte, or `.step` for an unknown one (R54). -/
def disassemble (opc : OpcMap) (op hh ll : Byte) : Line :=
  match opc.lookup op with
  | some n => .known n hh ll
  | none => .raw op hh ll

end Sys2Proof.Machine
end

