-- ==== Sys2Proof/Machine/DeriveKey.lean ====
section
/-! DEFINITION. The function the machine computes (rule R84): the source's `deriveKey`, on a table given as a function
of the address. The machine does not call it; statements compare the machine with it (rules R26, R91). -/

namespace Sys2Proof.Machine

/-- The running value `v_i` of R84 for seed `seed`, algorithm id `a` and table `T`. -/
def runningValue (opc : OpcMap) (T : Nat → Byte) (a : Byte) (seed : Word) : Nat → Word
  | 0 => seed
  | i + 1 =>
    execValue opc (T (opAddr a i)) (runningValue opc T a seed i) (T (hhAddr a i)) (T (llAddr a i))

/-- `deriveKey(s, a, T)` (R84). -/
def deriveKey (opc : OpcMap) (seed : Word) (a : Byte) (T : Nat → Byte) : Word :=
  if a = 0 then not16 seed else runningValue opc T a seed Config.steps

end Sys2Proof.Machine
end

