-- ==== Sys2Proof/Machine/Host.lean ====
section
/-! DEFINITION. The host's side of the interface: the output ports, the moves of rule R104 and one move of the model's own
(log 7), which land between two transitions of the engine. -/

namespace Sys2Proof.Machine

/-- Output port `key` (R20): the accumulator while `done = 1`; otherwise a value the spec leaves unspecified, hence a
free value and never `acc` (U8).

DESIGN CHOICE, unsafe (log 6): the free value depends on `draws` alone, so states with equal `draws` show equal values:
the states of one run, which START, BYPASS and EXEC lead through, those of runs with other seeds, and those of other
engines (R108). The spec relates no two unspecified values of `key`, and no statement rests on such an equality. -/
def keyPort (s : State) : Word := if done s then s.acc else Config.freeKey s.draws

/-- Output port `tbl_addr` outside an EXEC transition: unspecified, a free value (R20, U10).

DESIGN CHOICE, unsafe (log 7): the free value depends on `draws` alone, so states with equal `draws`, of one run, of two
runs or of two engines, show equal values. The spec relates no two of them, and no statement rests on such an
equality. -/
def tblAddrPort (s : State) : BitVec 12 := Config.freeTblAddr s.draws

/-- The addresses the enabled transition reads (R29, R87): those of the step in EXEC, none otherwise. The list means no
order (R87; log 7). -/
def requestedAddrs (s : State) : List Nat :=
  if enabled s = .execStep then [fetchAddr s, fetchAddr s + 1, fetchAddr s + 2] else []

/-- What the 12-bit port `tbl_addr` carries during the enabled transition (R19, R20). -/
def drivenAddrs (s : State) : List (BitVec 12) := (requestedAddrs s).map (BitVec.ofNat 12)

/-- The rows of R104's table, and one move more: R104 has no row for sampling `tbl_addr` (DESIGN CHOICE, log 7). -/
inductive HostMove where
  /-- Drive the four input ports: reset, start a run, start while busy, change inputs. -/
  | drive (rst start : Bool) (seedIn : Word) (algoIn : Byte)
  /-- Replace the table by another one, given as its bytes (R41, R43). -/
  | connectTable (bytes : List Byte)
  /-- Reprogram one byte of the table memory (R41). -/
  | programByte (addr : Nat) (x : Byte)
  /-- Sample `key`. -/
  | readKey
  /-- Sample `tbl_addr`, an output port of R19, between two transitions. DESIGN CHOICE (log 7): no row of R104; its one
  effect is on the model's own counter `draws`. -/
  | readTblAddr
deriving DecidableEq, Repr

/-- The host drives `rst`, `start`, `seed_in`, `algo_in` (R19). -/
def driveInputs (rst start : Bool) (seedIn : Word) (algoIn : Byte) (s : State) : State :=
  { s with rst := rst, start := start, seedIn := seedIn, algoIn := algoIn }

/-- Replace the whole table: refused during a run (R115) and for a byte list that is not 3328 long (R43). -/
def connectTable (bytes : List Byte) (s : State) : Host.Outcome State Fault Refusal :=
  if s.st = .run then .refused .tableChangeInRun
  else
    match Memory.ofBytes bytes with
    | .ok m => .next { s with mem := m }
    | .error r => .refused r

/-- Reprogram one byte: refused during a run (R115) and outside 0..3327 (R28). -/
def programByte (addr : Nat) (x : Byte) (s : State) : Host.Outcome State Fault Refusal :=
  if s.st = .run then .refused .tableChangeInRun
  else if addr < Config.tableBytes then .next { s with mem := s.mem.write addr x }
  else .refused (.noSuchTableByte addr)

/-- After sampling `key`: reading the key has no effect (R88); a sample while `done = 0` uses up a free value. -/
def sampleKey (s : State) : State := if done s then s else { s with draws := s.draws + 1 }

/-- After sampling `tbl_addr` between two transitions: one free value is used up. DESIGN CHOICE (log 7): R104's table
has no such move; it changes no state the spec gives the engine. -/
def sampleTblAddr (s : State) : State := { s with draws := s.draws + 1 }

/-- The effect of a host move (R104; for `readTblAddr`, log 7). -/
def hostMove (m : HostMove) (s : State) : Host.Outcome State Fault Refusal :=
  match m with
  | .drive rst start seedIn algoIn => .next (driveInputs rst start seedIn algoIn s)
  | .connectTable bytes => connectTable bytes s
  | .programByte addr x => programByte addr x s
  | .readKey => .next (sampleKey s)
  | .readTblAddr => .next (sampleTblAddr s)

end Sys2Proof.Machine
end

