-- ==== Sys2Proof/Machine/System.lean ====
section
/-! DEFINITION. Runs: the engine's transitions interleaved with the host's moves, and several engines side by side
(rules R91, R97, R104, R108). -/

namespace Sys2Proof.Machine

/-- What happens next: a host move, or one transition of the engine. -/
inductive Action where
  | host (m : HostMove)
  | tick
deriving DecidableEq, Repr

/-- One action on one engine. -/
def act (opc : OpcMap) (a : Action) (s : State) : Host.Outcome State Fault Refusal :=
  match a with
  | .host m => hostMove m s
  | .tick => stepWith opc s

/-- A list of actions, stopping at the first fault or refusal. -/
def runActions (opc : OpcMap) : List Action → State → Host.Outcome State Fault Refusal
  | [], s => .next s
  | a :: rest, s =>
    match act opc a s with
    | .next t => runActions opc rest t
    | .fault f => .fault f
    | .refused r => .refused r

/-- What the host drives on `start`, `seed_in`, `algo_in` for one transition, with `rst = 0`. -/
structure Stimulus where
  start  : Bool
  seedIn : Word
  algoIn : Byte
deriving DecidableEq, Repr

/-- The host drives a stimulus and the engine takes one transition. -/
def Stimulus.actions (i : Stimulus) : List Action :=
  [.host (.drive false i.start i.seedIn i.algoIn), .tick]

/-- One transition per stimulus, the inputs changing before each. -/
def runStimuli (opc : OpcMap) (is : List Stimulus) (s : State) : Host.Outcome State Fault Refusal :=
  runActions opc (is.flatMap Stimulus.actions) s

/-- How many transitions a run takes after its START: BYPASS, or four EXECs (R91, R93). -/
def runLength (a : Byte) : Nat := if a = 0 then 1 else Config.steps

/-- One action on the engine number `k` of several (R108): the others are not touched. A number that names no engine
names nothing to act on. All engines have the one map `opc` (DESIGN CHOICE, log 19). -/
def actAt (opc : OpcMap) (k : Nat) (a : Action) (es : List State) : Host.Outcome (List State) Fault Refusal :=
  match es[k]? with
  | none => .next es
  | some s =>
    match act opc a s with
    | .next t => .next (es.set k t)
    | .fault f => .fault f
    | .refused r => .refused r

/-- An interleaving of actions on several engines (R108), each with its own copy of the table (log 19).

DESIGN CHOICE, unsafe (log 3, log 6, log 7, log 19): each engine has its own `draws`, and a free value depends on that
number alone, so engines with equal counters hold equal unspecified values. The spec relates no such values of two
instances, and no statement compares those of two different engines.

DESIGN CHOICE, unsafe (log 19): one `opc` serves every engine. R49 and R113 make `OPC` a parameter of each engine as built,
and R108 does not say whether engines side by side share it; engines built with different maps are not modelled. -/
def runEngines (opc : OpcMap) : List (Nat × Action) → List State → Host.Outcome (List State) Fault Refusal
  | [], es => .next es
  | (k, a) :: rest, es =>
    match actAt opc k a es with
    | .next fs => runEngines opc rest fs
    | .fault f => .fault f
    | .refused r => .refused r

/-- The actions an interleaving holds for engine `k`, in their order. -/
def actionsOf (k : Nat) : List (Nat × Action) → List Action
  | [] => []
  | (j, a) :: rest => if j = k then a :: actionsOf k rest else actionsOf k rest

end Sys2Proof.Machine
end

