-- ==== Sys2Proof/Safety.lean ====
section
/-! DEFINITION. What counts as a safe state, what a run in progress means, and what an instruction leaves alone: the
vocabulary of the statements. -/

namespace Sys2Proof.Machine

/-- The shape of every reachable state (R14, R26) with the table in canonical form. It rules out an EXEC with `sp`
above 3, the one state in which the fetch could leave the table (R32). -/
structure Inv (s : State) : Prop where
  /-- The table is in canonical form, so every listed address is inside 0..3327 (R28). -/
  memWf : s.mem.wf = true
  /-- R26 (b): while the bypass is pending `sp` is 0. -/
  bypassSp : s.st = .run → s.algoR = 0 → s.sp = 0
  /-- R26 (c): while a program runs `sp` is the index of a step. -/
  stepSp : s.st = .run → s.algoR ≠ 0 → s.sp.toNat < Config.steps
  /-- R26 (d): at the end of a run `sp` is 0 after the bypass and 4 after a program. -/
  doneSp : s.st = .done → (s.algoR = 0 ∧ s.sp = 0) ∨ (s.algoR ≠ 0 ∧ s.sp = 4)

/-- R26 (b) to (d) with the value of `acc`: the state belongs to the run that was started with seed `seed` under the
latched algorithm id and the table the state holds. -/
structure RunInv (opc : OpcMap) (seed : Word) (s : State) : Prop where
  /-- A run has been started since reset. -/
  started : s.st ≠ .idle
  /-- R26 (b). -/
  bypassing : s.st = .run → s.algoR = 0 → s.sp = 0 ∧ s.acc = seed
  /-- R26 (c). -/
  stepping : s.st = .run → s.algoR ≠ 0 →
    s.sp.toNat < Config.steps ∧ s.acc = runningValue opc s.mem.byteAt s.algoR seed s.sp.toNat
  /-- R26 (d). -/
  finished : s.st = .done →
    ((s.algoR = 0 ∧ s.sp = 0) ∨ (s.algoR ≠ 0 ∧ s.sp = 4)) ∧ s.acc = deriveKey opc seed s.algoR s.mem.byteAt

/-- Everything outside `st`, `acc`, `sp` is as before: the latched algorithm id, every byte of the table as a read shows
it, the input ports, the draw counter. -/
structure Untouched (s t : State) : Prop where
  algoR  : t.algoR = s.algoR
  table  : ∀ a, tblRead t.mem a = tblRead s.mem a
  rst    : t.rst = s.rst
  start  : t.start = s.start
  seedIn : t.seedIn = s.seedIn
  algoIn : t.algoIn = s.algoIn
  draws  : t.draws = s.draws

/-- What an engine's state is apart from `acc`, `sp`, `algo_r` and the model's draw counter: `st`, the table and the
inputs agree. -/
structure SameSurroundings (s t : State) : Prop where
  st     : t.st = s.st
  mem    : t.mem = s.mem
  rst    : t.rst = s.rst
  start  : t.start = s.start
  seedIn : t.seedIn = s.seedIn
  algoIn : t.algoIn = s.algoIn

end Sys2Proof.Machine
end

