-- ==== Sys2Proof/Certificates/Slice0/Obligations.lean ====
section
/-! DEFINITION. The statements for the provers. "opc" is any opcode map; `step` is `stepWith defaultOpc`. Statements that
rest on a choice the spec marks as its own (`[decision: ...]`, rows D<n>) or on one of the model's log entries say so. -/

open Sys2Proof Sys2Proof.Machine

/-! Encoding -/

/-- Decoding an encoded well-formed instruction gives it back with the bytes after it, for all twelve rows and every
operand byte. That `opc` is injective is the spec's inference in rule R49. -/
def Obligations.DecodeOfEncodeIsTheInstruction : Prop :=
  ∀ opc : OpcMap, opc.Injective → ∀ (i : Instr) (rest : List Byte), i.wellFormed opc = true →
    decode opc (encode opc i ++ rest) = .ok (i, rest)

/-- The other direction: every step word is read as a well-formed instruction, and encoding it gives the three bytes
back, under any opcode map. -/
def Obligations.EncodeOfDecodedStepIsItsBytes : Prop :=
  ∀ (opc : OpcMap) (op hh ll : Byte),
    (decodeStep opc op hh ll).wellFormed opc = true ∧ encode opc (decodeStep opc op hh ll) = [op, hh, ll]

/-- R48: the byte of a name selects that name's operation whatever `hh` and `ll` are; every other byte selects `nop`;
there are 245 of those; three bytes are read without looking at them. -/
def Obligations.OpcodeByteAloneSelectsTheOperation : Prop :=
  ∀ opc : OpcMap, opc.Injective →
    (∀ (n : OpName) (hh ll : Byte), decodeStep opc (opc.byte n) hh ll = Instr.ofName n hh ll) ∧
    (∀ op : Byte, (∀ n, opc.byte n ≠ op) → ∀ hh ll, decodeStep opc op hh ll = .nop op hh ll) ∧
    ((List.range 256).countP fun b => !opc.known (BitVec.ofNat 8 b)) = 245 ∧
    (∀ (op hh ll : Byte) (rest : List Byte), decode opc (op :: hh :: ll :: rest) = .ok (decodeStep opc op hh ll, rest))

/-- Under the default opcode bytes (from general knowledge, log 9) some step words are read as their instructions. -/
def Obligations.DefaultStepWordsDecode : Prop :=
  decodeTableWord 24 0b000001011010101111001101 = some (.flip 0xAB 0xCD) ∧
  decodeTableWord 24 0b000101000001001000110100 = some (.add 0x12 0x34) ∧
  decodeTableWord 24 0b001010100000000100000010 = some (.cpl 0x01 0x02) ∧
  decodeTableWord 24 0b011010110111011100011111 = some (.ror 0x77 0x1F) ∧
  decodeTableWord 24 0b111110000011010000010010 = some (.subf 0x34 0x12) ∧
  decodeTableWord 24 0b000000001010101001010101 = some (.nop 0x00 0xAA 0x55)

/-- The step word has `op` in 23:16, `hh` in 15:8, `ll` in 7:0, and the table's reading of its bits is the decoder's
reading of the three bytes. The step word is the spec's own device (D22; log 13). -/
def Obligations.StepWordHoldsItsBytes : Prop :=
  ∀ op hh ll : Byte,
    (stepWord op hh ll).extractLsb' 16 8 = op ∧ (stepWord op hh ll).extractLsb' 8 8 = hh ∧
    (stepWord op hh ll).extractLsb' 0 8 = ll ∧
    decodeTableWord 24 (stepWord op hh ll).toNat = some (decodeStep defaultOpc op hh ll)

/-! The datapath's primitives -/

/-- R57, R58, R59: addition and subtraction wrap modulo 65536, the complement inverts every bit. -/
def Obligations.SixteenBitArithmeticWraps : Prop :=
  ∀ a b : Word,
    (add16 a b).toNat = (a.toNat + b.toNat) % 65536 ∧
    (sub16 a b).toNat = (a.toNat + 65536 - b.toNat) % 65536 ∧
    (∀ r : Nat, r < 65536 →
      (r = (sub16 a b).toNat ↔ ((r : Int) - ((a.toNat : Int) - (b.toNat : Int))) % 65536 = 0)) ∧
    sub16 a b = add16 a (add16 (not16 b) 1) ∧
    (not16 a).toNat = 65535 - a.toNat ∧
    (∀ i : Nat, i < 16 → (not16 a).getLsbD i = !a.getLsbD i)

/-- R60: the byte swap, as a number and bit by bit. -/
def Obligations.SwapExchangesTheBytes : Prop :=
  ∀ v : Word,
    (swap16 v).toNat = v.toNat % 256 * 256 + v.toNat / 256 ∧ swap16 v = loByte v ++ hiByte v ∧
    (∀ i : Nat, i < 16 → (swap16 v).getLsbD i = v.getLsbD ((i + 8) % 16))

/-- The two readings of the operand pair and how they compare (the comparison is the spec's inference in R61). -/
def Obligations.NaturalAndFlippedReadings : Prop :=
  ∀ hh ll : Byte,
    (natOperand hh ll).toNat = hh.toNat * 256 + ll.toNat ∧ (flpOperand hh ll).toNat = ll.toNat * 256 + hh.toNat ∧
    flpOperand hh ll = swap16 (natOperand hh ll) ∧ flpOperand hh ll = natOperand ll hh ∧
    (natOperand hh ll = flpOperand hh ll ↔ hh = ll) ∧
    ((flpOperand hh ll).toNat < (natOperand hh ll).toNat ↔ ll.toNat < hh.toNat)

/-- R62: bit `i` of the left rotation is bit `(i − n) mod 16`, and the arithmetic form. -/
def Obligations.RotateLeftPermutesBits : Prop :=
  ∀ (v : Word) (n : BitVec 4),
    (∀ i : Nat, i < 16 → (rotl16 v n).getLsbD i = v.getLsbD ((i + 16 - n.toNat) % 16)) ∧
    rotl16 v 0 = v ∧
    (n ≠ 0 → (rotl16 v n).toNat = v.toNat * 2 ^ n.toNat % 65536 + v.toNat / 2 ^ (16 - n.toNat))

/-- R63: bit `i` of the right rotation is bit `(i + n) mod 16`, and the arithmetic form. -/
def Obligations.RotateRightPermutesBits : Prop :=
  ∀ (v : Word) (n : BitVec 4),
    (∀ i : Nat, i < 16 → (rotr16 v n).getLsbD i = v.getLsbD ((i + n.toNat) % 16)) ∧
    rotr16 v 0 = v ∧
    (n ≠ 0 → (rotr16 v n).toNat = v.toNat / 2 ^ n.toNat + v.toNat * 2 ^ (16 - n.toNat) % 65536)

/-- R64: only the low nibble of an amount byte counts, so 0, 16, ..., 240 rotate by nothing, 17 acts as 1 and 255 as 15,
for both rotations. -/
def Obligations.RotateAmountIsTakenModulo16 : Prop :=
  (∀ b : Byte, (rotAmount b).toNat = b.toNat % 16) ∧
  (∀ (v : Word) (b x : Byte), b.toNat % 16 = 0 → opRol v b x = v ∧ opRor v x b = v) ∧
  (∀ (v : Word) (b c x y : Byte), b.toNat % 16 = c.toNat % 16 → opRol v b x = opRol v c y ∧ opRor v x b = opRor v y c)

/-- R67: the two laws the source states, and the second as instructions: ROL by `r` then ROR by `r` restores the
value whatever the ignored bytes are. -/
def Obligations.SwapAndRotationUndoThemselves : Prop :=
  (∀ v : Word, swap16 (swap16 v) = v) ∧
  (∀ (v : Word) (n : BitVec 4), rotr16 (rotl16 v n) n = v) ∧
  (∀ (r x y : Byte) (s : State), ∃ t u,
    exec (.rol r x) s = .next t ∧ exec (.ror y r) t = .next u ∧ u.acc = s.acc)

/-- The laws the spec infers (R68 (a) to (h)), of the rotations and of the arithmetic. -/
def Obligations.RotationAndNegationLaws : Prop :=
  (∀ (v : Word) (n m : BitVec 4),
    rotl16 (rotr16 v n) n = v ∧ rotl16 v n = rotr16 v (0 - n) ∧
    rotl16 (rotl16 v n) m = rotl16 v (n + m) ∧ rotl16 v 8 = swap16 v ∧ rotr16 v 8 = swap16 v) ∧
  (∀ v w : Word,
    not16 (not16 v) = v ∧ add16 (not16 v) 1 = sub16 0 v ∧ sub16 (add16 v w) w = v ∧ add16 (sub16 v w) w = v ∧
    sub16 v w = add16 v (sub16 0 w))

/-- Which primitives lose nothing (R68 (i)): six are bijections, and and or only under the one neutral operand. -/
def Obligations.WhichPrimitivesAreBijections : Prop :=
  Function.Bijective swap16 ∧ Function.Bijective not16 ∧
  (∀ n, Function.Bijective fun v => rotl16 v n) ∧ (∀ n, Function.Bijective fun v => rotr16 v n) ∧
  (∀ w, Function.Bijective fun v => add16 v w) ∧ (∀ w, Function.Bijective fun v => sub16 v w) ∧
  (∀ w : Word, Function.Bijective (fun v : Word => v &&& w) ↔ w = 0xFFFF) ∧
  (∀ w : Word, Function.Bijective (fun v : Word => v ||| w) ↔ w = 0x0000)

/-! What each instruction computes, for every state and every operand pair; each completes -/

/-- R71. -/
def Obligations.FlipSwapsTheAccumulator : Prop :=
  ∀ (hh ll : Byte) (s : State),
    (∀ opc : OpcMap, opc.Injective → decodeStep opc opc.flip hh ll = .flip hh ll) ∧
    ∃ t, exec (.flip hh ll) s = .next t ∧ t.acc.toNat = s.acc.toNat % 256 * 256 + s.acc.toNat / 256

/-- R72. -/
def Obligations.AddAddsTheNaturalOperand : Prop :=
  ∀ (hh ll : Byte) (s : State),
    (∀ opc : OpcMap, opc.Injective → decodeStep opc opc.add hh ll = .add hh ll) ∧
    ∃ t, exec (.add hh ll) s = .next t ∧ t.acc.toNat = (s.acc.toNat + hh.toNat * 256 + ll.toNat) % 65536

/-- CPL (R73) with the spec's own decision that operand bytes compare as unsigned (D5; log 10): one's complement,
plus 1, wrapping, exactly when `hh < ll`. -/
def Obligations.CplComplementsOrNegates : Prop :=
  ∀ (hh ll : Byte) (s : State),
    (∀ opc : OpcMap, opc.Injective → decodeStep opc opc.cpl hh ll = .cpl hh ll) ∧
    ∃ t, exec (.cpl hh ll) s = .next t ∧
      t.acc.toNat = if hh.toNat < ll.toNat then (65535 - s.acc.toNat + 1) % 65536 else 65535 - s.acc.toNat

/-- R74: `ll` masks the high byte, `hh` the low byte. -/
def Obligations.AndfMasksWithTheFlippedOperand : Prop :=
  ∀ (hh ll : Byte) (s : State),
    (∀ opc : OpcMap, opc.Injective → decodeStep opc opc.andf hh ll = .andf hh ll) ∧
    ∃ t, exec (.andf hh ll) s = .next t ∧ t.acc = s.acc &&& (ll ++ hh) ∧
      hiByte t.acc = hiByte s.acc &&& ll ∧ loByte t.acc = loByte s.acc &&& hh

/-- R75: the amount is `hh mod 16`. -/
def Obligations.RolRotatesLeftByTheFirstByte : Prop :=
  ∀ (hh ll : Byte) (s : State),
    (∀ opc : OpcMap, opc.Injective → decodeStep opc opc.rol hh ll = .rol hh ll) ∧
    ∃ t, exec (.rol hh ll) s = .next t ∧
      ∀ i : Nat, i < 16 → t.acc.getLsbD i = s.acc.getLsbD ((i + 16 - hh.toNat % 16) % 16)

/-- R76: `ll` sets bits in the high byte, `hh` in the low byte. -/
def Obligations.OrfSetsWithTheFlippedOperand : Prop :=
  ∀ (hh ll : Byte) (s : State),
    (∀ opc : OpcMap, opc.Injective → decodeStep opc opc.orf hh ll = .orf hh ll) ∧
    ∃ t, exec (.orf hh ll) s = .next t ∧ t.acc = s.acc ||| (ll ++ hh) ∧
      hiByte t.acc = hiByte s.acc ||| ll ∧ loByte t.acc = loByte s.acc ||| hh

/-- R77: the amount is `ll mod 16`. -/
def Obligations.RorRotatesRightByTheSecondByte : Prop :=
  ∀ (hh ll : Byte) (s : State),
    (∀ opc : OpcMap, opc.Injective → decodeStep opc opc.ror hh ll = .ror hh ll) ∧
    ∃ t, exec (.ror hh ll) s = .next t ∧
      ∀ i : Nat, i < 16 → t.acc.getLsbD i = s.acc.getLsbD ((i + ll.toNat % 16) % 16)

/-- R78. -/
def Obligations.AddfAddsTheFlippedOperand : Prop :=
  ∀ (hh ll : Byte) (s : State),
    (∀ opc : OpcMap, opc.Injective → decodeStep opc opc.addf hh ll = .addf hh ll) ∧
    ∃ t, exec (.addf hh ll) s = .next t ∧ t.acc.toNat = (s.acc.toNat + ll.toNat * 256 + hh.toNat) % 65536

/-- FCADD (R79) with the spec's own decision that operand bytes compare as unsigned (D5; log 10): the swapped value plus
the natural reading if `hh >= ll`, else the flipped one, which is the larger of the two readings. -/
def Obligations.FcaddAddsTheLargerReading : Prop :=
  ∀ (hh ll : Byte) (s : State),
    (∀ opc : OpcMap, opc.Injective → decodeStep opc opc.fcadd hh ll = .fcadd hh ll) ∧
    ∃ t, exec (.fcadd hh ll) s = .next t ∧
      t.acc.toNat = ((s.acc.toNat % 256 * 256 + s.acc.toNat / 256) +
        if ll.toNat ≤ hh.toNat then hh.toNat * 256 + ll.toNat else ll.toNat * 256 + hh.toNat) % 65536 ∧
      t.acc.toNat = ((s.acc.toNat % 256 * 256 + s.acc.toNat / 256) +
        max hh.toNat ll.toNat * 256 + min hh.toNat ll.toNat) % 65536

/-- R80. -/
def Obligations.SubSubtractsTheNaturalOperand : Prop :=
  ∀ (hh ll : Byte) (s : State),
    (∀ opc : OpcMap, opc.Injective → decodeStep opc opc.sub hh ll = .sub hh ll) ∧
    ∃ t, exec (.sub hh ll) s = .next t ∧
      (t.acc.toNat : Int) = ((s.acc.toNat : Int) - hh.toNat * 256 - ll.toNat) % 65536

/-- R81. -/
def Obligations.SubfSubtractsTheFlippedOperand : Prop :=
  ∀ (hh ll : Byte) (s : State),
    (∀ opc : OpcMap, opc.Injective → decodeStep opc opc.subf hh ll = .subf hh ll) ∧
    ∃ t, exec (.subf hh ll) s = .next t ∧
      (t.acc.toNat : Int) = ((s.acc.toNat : Int) - ll.toNat * 256 - hh.toNat) % 65536

/-- R82: any byte outside the image of `OPC` is read as the identity step, which still counts. -/
def Obligations.UnknownOpcodeIsTheIdentity : Prop :=
  ∀ (op hh ll : Byte) (s : State),
    (∀ opc : OpcMap, (∀ n, opc.byte n ≠ op) → decodeStep opc op hh ll = .nop op hh ll) ∧
    ∃ t, exec (.nop op hh ll) s = .next t ∧ t.acc = s.acc ∧ t.sp = s.sp + 1

/-- The frame of all twelve instructions: `sp` advances by one, the step with old `sp = 3` enters DONE, and nothing but
`acc`, `sp`, `st` changes: not the latched id, no byte of the table (none of the twelve stores), no port. The registers
and the advance are the spec's own decisions (D3, D10). -/
def Obligations.InstructionFrame : Prop :=
  ∀ (i : Instr) (s t : State), exec i s = .next t →
    t.sp = s.sp + 1 ∧ t.st = (if s.sp = 3 then .done else .run) ∧ Untouched s t

/-- The corner cases of R78, R79, R81: exchanging the operand bytes turns ADDF into ADD and SUBF into SUB and leaves
FCADD as it is (for FCADD under D5, log 10); with equal bytes the flipped forms coincide with the natural ones; FCADD of
two zero bytes is FLIP. -/
def Obligations.ExchangedOperandBytes : Prop :=
  ∀ (hh ll : Byte) (s : State),
    exec (.addf hh ll) s = exec (.add ll hh) s ∧ exec (.subf hh ll) s = exec (.sub ll hh) s ∧
    exec (.fcadd hh ll) s = exec (.fcadd ll hh) s ∧
    exec (.addf hh hh) s = exec (.add hh hh) s ∧ exec (.subf hh hh) s = exec (.sub hh hh) s ∧
    exec (.fcadd 0 0) s = exec (.flip 0 0) s

/-- The corner cases of R71, R73, R80, R81: FLIP and CPL twice, ADD then SUB and ADDF then SUBF with the same bytes, each
restore the value. -/
def Obligations.InstructionsThatUndoEachOther : Prop :=
  ∀ (hh ll : Byte) (s : State),
    (∃ t u, exec (.flip hh ll) s = .next t ∧ exec (.flip hh ll) t = .next u ∧ u.acc = s.acc) ∧
    (∃ t u, exec (.cpl hh ll) s = .next t ∧ exec (.cpl hh ll) t = .next u ∧ u.acc = s.acc) ∧
    (∃ t u, exec (.add hh ll) s = .next t ∧ exec (.sub hh ll) t = .next u ∧ u.acc = s.acc) ∧
    (∃ t u, exec (.addf hh ll) s = .next t ∧ exec (.subf hh ll) t = .next u ∧ u.acc = s.acc)

/-- The bytes R47 calls ignored (the spec's inference): FLIP and NOP look at no operand byte, ROL at the low nibble of
`hh`, ROR at the low nibble of `ll`; and the 245 unknown opcode bytes are all alike. -/
def Obligations.IgnoredOperandBytes : Prop :=
  ∀ (hh ll hh' ll' op op' : Byte) (s : State),
    exec (.flip hh ll) s = exec (.flip hh' ll') s ∧
    exec (.nop op hh ll) s = exec (.nop op' hh' ll') s ∧
    (hh.toNat % 16 = hh'.toNat % 16 → exec (.rol hh ll) s = exec (.rol hh' ll') s) ∧
    (ll.toNat % 16 = ll'.toNat % 16 → exec (.ror hh ll) s = exec (.ror hh' ll') s)

/-- The datapath and the decoded instruction agree: what a step's reading leaves in `acc` is the value the combinational
block selects by the opcode byte, for every opcode map. -/
def Obligations.DatapathAgreesWithTheDecodedInstruction : Prop :=
  ∀ (opc : OpcMap) (op hh ll : Byte) (s : State), ∃ t,
    exec (decodeStep opc op hh ll) s = .next t ∧ t.acc = execValue opc op s.acc hh ll

/-- R70: under an injective map the selected function is the one of the opcode byte's name, so the order of the tests
does not matter, and any other byte leaves the value. -/
def Obligations.ExecSelectsByOpcodeByte : Prop :=
  ∀ opc : OpcMap, opc.Injective → ∀ (v : Word) (hh ll : Byte),
    execValue opc opc.flip v hh ll = opFlip v hh ll ∧ execValue opc opc.add v hh ll = opAdd v hh ll ∧
    execValue opc opc.cpl v hh ll = opCpl v hh ll ∧ execValue opc opc.andf v hh ll = opAndf v hh ll ∧
    execValue opc opc.rol v hh ll = opRol v hh ll ∧ execValue opc opc.orf v hh ll = opOrf v hh ll ∧
    execValue opc opc.ror v hh ll = opRor v hh ll ∧ execValue opc opc.addf v hh ll = opAddf v hh ll ∧
    execValue opc opc.fcadd v hh ll = opFcadd v hh ll ∧ execValue opc opc.sub v hh ll = opSub v hh ll ∧
    execValue opc opc.subf v hh ll = opSubf v hh ll ∧
    (∀ op : Byte, (∀ n, opc.byte n ≠ op) → execValue opc op v hh ll = v)

/-! The interpreter -/

/-- A step runs the decoded instruction: with a run of a program in progress and `rst` low, the step at a state is `exec`
of the reading of the three bytes at `algo_r × 13 + sp × 3`, with nothing around it. -/
def Obligations.StepRunsTheFetchedInstruction : Prop :=
  ∀ (opc : OpcMap) (s : State) (op hh ll : Byte), s.rst = false → s.st = .run → s.algoR ≠ 0 →
    tblRead s.mem (s.algoR.toNat * 13 + s.sp.toNat * 3) = .ok op →
    tblRead s.mem (s.algoR.toNat * 13 + s.sp.toNat * 3 + 1) = .ok hh →
    tblRead s.mem (s.algoR.toNat * 13 + s.sp.toNat * 3 + 2) = .ok ll →
      stepWith opc s = exec (decodeStep opc op hh ll) s ∧ step s = exec (decodeStep defaultOpc op hh ll) s

/-- The EXEC transition (D10, D16): in RUN with a program, `rst` low and `sp` the index of a step, the engine completes
one step: the datapath's value of the three table bytes, `sp` advanced, DONE after step 3, all else untouched, whatever
the inputs other than `rst` are. -/
def Obligations.ExecTransitionCompletesOneStep : Prop :=
  ∀ (opc : OpcMap) (s : State), s.rst = false → s.st = .run → s.algoR ≠ 0 → s.sp.toNat < 4 →
    ∃ t, stepWith opc s = .next t ∧
      t.acc = execValue opc (s.mem.byteAt (s.algoR.toNat * 13 + s.sp.toNat * 3)) s.acc
        (s.mem.byteAt (s.algoR.toNat * 13 + s.sp.toNat * 3 + 1))
        (s.mem.byteAt (s.algoR.toNat * 13 + s.sp.toNat * 3 + 2)) ∧
      t.sp.toNat = s.sp.toNat + 1 ∧ t.st = (if s.sp = 3 then .done else .run) ∧ Untouched s t

/-- The BYPASS transition (D9): in RUN with algorithm id 0 and `rst` low, the pure complement and DONE; `sp` stays; no
table address is requested. -/
def Obligations.BypassComplementsTheSeed : Prop :=
  ∀ (opc : OpcMap) (s : State), s.rst = false → s.st = .run → s.algoR = 0 →
    requestedAddrs s = [] ∧
    ∃ t, stepWith opc s = .next t ∧ t.acc.toNat = 65535 - s.acc.toNat ∧ t.st = .done ∧ t.sp = s.sp ∧ Untouched s t

/-- The START transition (D8): with `start` high, `rst` low and no run in progress the engine samples its inputs; `busy`
rises and `done` falls; the table and the ports are untouched. -/
def Obligations.StartSamplesTheInputs : Prop :=
  ∀ (opc : OpcMap) (s : State), s.rst = false → s.start = true → s.st ≠ .run →
    ∃ t, stepWith opc s = .next t ∧ t.acc = s.seedIn ∧ t.algoR = s.algoIn ∧ t.sp = 0 ∧ t.st = .run ∧
      busy t = true ∧ done t = false ∧ SameSurroundings { s with st := .run } t ∧ t.draws = s.draws

/-- With `rst` and `start` low, IDLE and DONE are quiescent (D10, D12). -/
def Obligations.IdleAndDoneAreQuiescent : Prop :=
  ∀ (opc : OpcMap) (s : State), s.rst = false → s.start = false → s.st ≠ .run → stepWith opc s = .next s

/-- While `rst` is high every step, in every state, goes to IDLE whatever else is requested; the table and the ports
stay (D12). Nothing is said of `acc`, `sp`, `algo_r`, which then hold free values (log 3). -/
def Obligations.ResetWinsInEveryState : Prop :=
  ∀ (opc : OpcMap) (s : State), s.rst = true →
    ∃ t, stepWith opc s = .next t ∧ SameSurroundings { s with st := .idle } t ∧ busy t = false ∧ done t = false

/-- A start command and any change of `seed_in`, `algo_in` during a run have no effect on it: stepping with other inputs
gives the same state but for the inputs (D2, D8). -/
def Obligations.InputsDuringARunHaveNoEffect : Prop :=
  ∀ (opc : OpcMap) (s t : State) (b : Bool) (w : Word) (a : Byte), s.rst = false → s.st = .run →
    stepWith opc s = .next t →
    stepWith opc (driveInputs false b w a s) = .next (driveInputs false b w a t)

/-! The ports and the table -/

/-- The status outputs follow `st` and are never both high; in DONE `key` is the accumulator and reading it has no
effect (D2, D11). Nothing is said of `key` while `done = 0` (log 6). -/
def Obligations.OutputsFollowTheState : Prop :=
  ∀ s : State, (busy s = true ↔ s.st = .run) ∧ (done s = true ↔ s.st = .done) ∧ ¬(busy s = true ∧ done s = true) ∧
    (done s = true → keyPort s = s.acc ∧ hostMove .readKey s = .next s)

/-- Every address a reachable engine requests lies in 13..3326, at the step's offsets, and fits the 12-bit port; only
EXEC requests any (the spec's inference in R32). -/
def Obligations.RequestedAddressesStayInBounds : Prop :=
  ∀ s : State, Inv s →
    (∀ a ∈ requestedAddrs s, 13 ≤ a ∧ a ≤ 3326 ∧ a % 13 ≠ 12 ∧ (BitVec.ofNat 12 a).toNat = a) ∧
    (requestedAddrs s ≠ [] → s.rst = false ∧ s.st = .run ∧ s.algoR ≠ 0)

/-- R30: no instruction, no transition and no port of the engine writes the table. -/
def Obligations.TheTableIsReadOnly : Prop :=
  (∀ (i : Instr) (s t : State), exec i s = .next t → t.mem = s.mem) ∧
  (∀ (opc : OpcMap) (s t : State), stepWith opc s = .next t → t.mem = s.mem) ∧
  (∀ (r b : Bool) (w : Word) (a : Byte) (s t : State), hostMove (.drive r b w a) s = .next t → t.mem = s.mem) ∧
  (∀ s t : State, hostMove .readKey s = .next t ∨ hostMove .readTblAddr s = .next t → t.mem = s.mem)

/-- Two tables in canonical form that read the same everywhere are the same data (the model's representation, log 5). -/
def Obligations.EqualReadsAreEqualTables : Prop :=
  ∀ m m' : Memory, m.wf = true → m'.wf = true → (∀ a, tblRead m a = tblRead m' a) → m = m'

/-- Connecting a table (D6, D7): refused during a run; otherwise refused for a byte list that is not 3328 long;
otherwise every address reads as the list's byte there and nothing else changes. -/
def Obligations.ConnectingATable : Prop :=
  ∀ (bytes : List Byte) (s : State),
    (s.st = .run → hostMove (.connectTable bytes) s = .refused .tableChangeInRun) ∧
    (s.st ≠ .run → bytes.length ≠ 3328 → hostMove (.connectTable bytes) s = .refused (.tableLength bytes.length)) ∧
    (s.st ≠ .run → bytes.length = 3328 → ∃ m, hostMove (.connectTable bytes) s = .next { s with mem := m } ∧
      ∀ (a : Nat) (h : a < bytes.length), tblRead m a = .ok bytes[a])

/-- Programming one byte between runs (D7): the byte is there afterwards, every other address reads as before, and
nothing but the table changes; refused during a run. Outside the table space 0..3327 it is refused too: that refusal is
the model's choice (DEDUCED, log 8). -/
def Obligations.ProgrammingOneByte : Prop :=
  ∀ (addr : Nat) (x : Byte) (s : State),
    (s.st = .run → hostMove (.programByte addr x) s = .refused .tableChangeInRun) ∧
    (s.st ≠ .run → 3328 ≤ addr → hostMove (.programByte addr x) s = .refused (.noSuchTableByte addr)) ∧
    (s.st ≠ .run → addr < 3328 → s.mem.wf = true → ∃ m, hostMove (.programByte addr x) s = .next { s with mem := m } ∧
      tblRead m addr = .ok x ∧ ∀ a, a ≠ addr → tblRead m a = tblRead s.mem a)

/-! Invariants -/

/-- The reset state: IDLE, not busy, not done (the spec's decision D12), and the invariant holds. The values the model
chose for registers, ports and table (log 2, log 4, log 5) are not named; that the table is canonical rests on log 5. -/
def Obligations.ResetStateIsIdle : Prop :=
  State.reset.st = .idle ∧ busy State.reset = false ∧ done State.reset = false ∧ Inv State.reset

/-- Every step, under every opcode map and so the engine's own, keeps the invariant: the table stays canonical, `sp`
stays the index of a step during a program, 0 during a bypass, and 4 or 0 at the end of a run. -/
def Obligations.StepKeepsTheInvariant : Prop :=
  (∀ (opc : OpcMap) (s t : State), Inv s → stepWith opc s = .next t → Inv t) ∧
  (∀ s t : State, Inv s → step s = .next t → Inv t)

/-- Every host move that is not turned away keeps the invariant. -/
def Obligations.HostMovesKeepTheInvariant : Prop :=
  ∀ (m : HostMove) (s t : State), Inv s → hostMove m s = .next t → Inv t

/-- From every state that meets the invariant the engine takes a step: no fault and no refusal, whatever the table, the
opcode map and the inputs. -/
def Obligations.TheEngineNeverStops : Prop :=
  ∀ (opc : OpcMap) (s : State), Inv s → ∃ t, stepWith opc s = .next t

/-- The values of R26 (b) to (d) along a run (the spec's inference): START establishes them for the sampled seed, and
every step that is neither a RESET nor a START keeps them for the same seed. -/
def Obligations.RunningValueIsTracked : Prop :=
  (∀ (opc : OpcMap) (s t : State), s.rst = false → s.start = true → s.st ≠ .run → stepWith opc s = .next t →
    RunInv opc s.seedIn t) ∧
  (∀ (opc : OpcMap) (seed : Word) (s t : State), RunInv opc seed s → s.rst = false →
    (s.st = .run ∨ s.start = false) → stepWith opc s = .next t → RunInv opc seed t)

/-! The function computed, and the machine against it -/

/-- R84: the complement for algorithm id 0, otherwise the fourth running value of the block at `a × 13`. -/
def Obligations.DeriveKeyIsFourStepsOrTheComplement : Prop :=
  ∀ (opc : OpcMap) (s : Word) (a : Byte) (T : Nat → Byte),
    (a = 0 → deriveKey opc s a T = not16 s) ∧ (a ≠ 0 → deriveKey opc s a T = runningValue opc T a s 4) ∧
    runningValue opc T a s 0 = s ∧
    (∀ i, runningValue opc T a s (i + 1) =
      execValue opc (T (a.toNat * 13 + i * 3)) (runningValue opc T a s i) (T (a.toNat * 13 + i * 3 + 1))
        (T (a.toNat * 13 + i * 3 + 2)))

/-- The key does not depend on block 0 nor on any padding byte (the spec's inference in R33). -/
def Obligations.UnreadBytesDoNotMatter : Prop :=
  ∀ (opc : OpcMap) (seed : Word) (a : Byte) (T T' : Nat → Byte),
    (∀ b k : Nat, 1 ≤ b → b < 256 → k < 12 → T (b * 13 + k) = T' (b * 13 + k)) →
    deriveKey opc seed a T = deriveKey opc seed a T'

/-- A block whose four opcode bytes are unknown makes the key equal to the seed, whatever its operand bytes. -/
def Obligations.UnknownBlockReturnsTheSeed : Prop :=
  ∀ (opc : OpcMap) (seed : Word) (a : Byte) (T : Nat → Byte), a ≠ 0 →
    (∀ i : Nat, i < 4 → opc.known (T (a.toNat * 13 + i * 3)) = false) → deriveKey opc seed a T = seed

/-- The machine computes the function (the spec's inference in R91): from any state without a run in progress, START with
seed `seed` and id `a` followed by one transition for id 0 and four for any other ends in DONE with the key on the port,
whatever `start`, `seed_in`, `algo_in` are meanwhile; the table is as before. -/
def Obligations.MachineComputesDeriveKey : Prop :=
  ∀ (opc : OpcMap) (s : State) (seed : Word) (a : Byte) (is : List Stimulus),
    s.st ≠ .run → is.length = runLength a →
    ∃ t, runStimuli opc (⟨true, seed, a⟩ :: is) s = .next t ∧ t.st = .done ∧
      t.acc = deriveKey opc seed a s.mem.byteAt ∧ keyPort t = deriveKey opc seed a s.mem.byteAt ∧
      t.sp = (if a = 0 then 0 else 4) ∧ t.algoR = a ∧ t.mem = s.mem

/-- The run is not over before that (the spec's inference in R93): after fewer transitions the engine is still busy. -/
def Obligations.RunsEndNoSooner : Prop :=
  ∀ (opc : OpcMap) (s : State) (seed : Word) (a : Byte) (is : List Stimulus),
    s.st ≠ .run → is.length < runLength a →
    ∃ t, runStimuli opc (⟨true, seed, a⟩ :: is) s = .next t ∧ t.st = .run ∧ busy t = true ∧ done t = false


/-- Purity (the spec's inference in R96): two runs with equal seed, id and table bytes end with equal keys, whatever the
engines held before and whatever the inputs do during the runs. -/
def Obligations.EqualRunsGiveEqualKeys : Prop :=
  ∀ (opc : OpcMap) (s s' : State) (seed : Word) (a : Byte) (is is' : List Stimulus),
    s.st ≠ .run → s'.st ≠ .run → (∀ x, tblRead s.mem x = tblRead s'.mem x) →
    is.length = runLength a → is'.length = runLength a →
    ∃ t t', runStimuli opc (⟨true, seed, a⟩ :: is) s = .next t ∧ runStimuli opc (⟨true, seed, a⟩ :: is') s' = .next t' ∧
      t.st = .done ∧ t'.st = .done ∧ keyPort t = keyPort t'

/-- Engines side by side do not interact (D19): after any interleaving of actions, engine `k` is where its own actions
alone take it. That a table move on one engine leaves another's table alone is the model's choice: each engine has its
own copy of the table (log 19), where D19 lets engines share one. The values a RESET leaves count as the same in both
runs (the model's choice, log 3), and all engines have one opcode map, any (the model's choice, log 19). -/
def Obligations.EnginesDoNotInteract : Prop :=
  ∀ (opc : OpcMap) (sched : List (Nat × Action)) (es fs : List State), runEngines opc sched es = .next fs →
    fs.length = es.length ∧
    ∀ (k : Nat) (s : State), es[k]? = some s → ∃ t, fs[k]? = some t ∧ runActions opc (actionsOf k sched) s = .next t

/-! The assembler -/

/-- An assembled table has 3328 bytes: each block of the text at its algorithm id's 13 bytes, 0x00 elsewhere (the spec's
own syntax, D15). -/
def Obligations.AssembledBlocksLieAtTheirStride : Prop :=
  ∀ (opc : OpcMap) (prog : List Block) (bytes : List Byte), assemble opc prog = some bytes →
    bytes.length = 3328 ∧
    (∀ b ∈ prog, ∀ k : Nat, k < 13 → bytes[b.algo.toNat * 13 + k]? = (b.bytes opc)[k]?) ∧
    (∀ a : Byte, (∀ b ∈ prog, b.algo ≠ a) → ∀ k : Nat, k < 13 → bytes[a.toNat * 13 + k]? = some 0x00)

/-- Disassembly inverts assembly (D15): the bytes of a disassembled step are the step's, and a line that is not a raw
spelling of a known opcode comes back. -/
def Obligations.DisassemblyInvertsAssembly : Prop :=
  ∀ opc : OpcMap, opc.Injective →
    (∀ op hh ll : Byte, (disassemble opc op hh ll).bytes opc = [op, hh, ll]) ∧
    (∀ (n : OpName) (hh ll : Byte), disassemble opc (opc.byte n) hh ll = .known n hh ll) ∧
    (∀ op hh ll : Byte, opc.known op = false → disassemble opc op hh ll = .raw op hh ll)

/-- The pseudo-instructions do what their table says (D15): the three bytes of each expansion decode to a step with that
effect, and the NOP byte is the smallest unknown one, under every injective map. -/
def Obligations.PseudoInstructionsDoWhatTheySay : Prop :=
  ∀ opc : OpcMap, opc.Injective →
    opc.known (nopByte opc) = false ∧ (∀ b : Byte, b.toNat < (nopByte opc).toNat → opc.known b = true) ∧
    ∀ (p : Pseudo) (s : State), ∃ i t, decode opc ((p.expand opc).bytes opc) = .ok (i, []) ∧ exec i s = .next t ∧
      t.acc = match p with
        | .flip => swap16 s.acc
        | .rol n => rotl16 s.acc (rotAmount n)
        | .ror n => rotr16 s.acc (rotAmount n)
        | .not => not16 s.acc
        | .neg => sub16 0 s.acc
        | .nop => s.acc
end

