-- ==== Sys2Proof/Laws/Decode.lean ====
section
/-! SUPPORT. What the lookup of an opcode byte answers. -/

namespace Sys2Proof

theorem OpName.mem_all (n : OpName) : n ∈ OpName.all := by cases n <;> decide

theorem OpcMap.byte_inj {opc : OpcMap} (h : opc.Injective) {m n : OpName} (e : opc.byte m = opc.byte n) : m = n :=
  List.inj_on_of_nodup_map h (OpName.mem_all m) (OpName.mem_all n) e

theorem OpcMap.byte_of_lookup {opc : OpcMap} {op : Byte} {n : OpName} (h : opc.lookup op = some n) :
    opc.byte n = op := by
  simpa using List.find?_some h

theorem OpcMap.lookup_eq_none {opc : OpcMap} {op : Byte} : opc.lookup op = none ↔ ∀ n, opc.byte n ≠ op := by
  simp only [OpcMap.lookup, List.find?_eq_none, beq_iff_eq]
  exact ⟨fun h n => h n (OpName.mem_all n), fun h n _ => h n⟩

theorem OpcMap.lookup_byte {opc : OpcMap} (h : opc.Injective) (n : OpName) : opc.lookup (opc.byte n) = some n := by
  cases e : opc.lookup (opc.byte n) with
  | none => exact absurd rfl (OpcMap.lookup_eq_none.mp e n)
  | some m => rw [OpcMap.byte_inj h (OpcMap.byte_of_lookup e)]

theorem OpcMap.known_iff {opc : OpcMap} {op : Byte} : opc.known op = true ↔ ∃ n, opc.byte n = op := by
  simp only [OpcMap.known, List.any_eq_true, beq_iff_eq]
  exact ⟨fun ⟨n, _, e⟩ => ⟨n, e⟩, fun ⟨n, e⟩ => ⟨n, OpName.mem_all n, e⟩⟩

/-- The default opcode bytes are eleven different values (R49). -/
theorem defaultOpc_injective : defaultOpc.Injective := by decide

end Sys2Proof
end

