-- ==== Sys2Proof/Laws/Memory.lean ====
section
/-! SUPPORT. The table space: read after write, and the canonical form under every operation that makes or changes a
table. -/

namespace Sys2Proof.Machine

theorem Memory.byteAt_cons_self (a : Nat) (x : Byte) (m : Memory) : Memory.byteAt ((a, x) :: m) a = x := if_pos rfl

theorem Memory.byteAt_cons_other {a c : Nat} (x : Byte) (m : Memory) (h : c ≠ a) :
    Memory.byteAt ((a, x) :: m) c = m.byteAt c := if_neg h.symm

theorem Memory.wfFrom_cons {lo a : Nat} {x : Byte} {m : Memory} :
    Memory.wfFrom lo ((a, x) :: m) = true ↔
      lo ≤ a ∧ a < Config.tableBytes ∧ x ≠ 0 ∧ Memory.wfFrom (a + 1) m = true := by
  simp [Memory.wfFrom, and_assoc]

theorem Memory.wfFrom_mono {lo hi : Nat} {m : Memory} (h : Memory.wfFrom hi m = true) (hlo : lo ≤ hi) :
    Memory.wfFrom lo m = true := by
  cases m with
  | nil => rfl
  | cons c rest =>
    rw [Memory.wfFrom_cons] at h ⊢
    exact ⟨hlo.trans h.1, h.2⟩

/-- Below its first address a canonical table lists nothing, so such an address reads as 0x00. -/
theorem Memory.byteAt_of_lt {lo a : Nat} {m : Memory} (h : Memory.wfFrom lo m = true) (ha : a < lo) :
    m.byteAt a = 0 := by
  induction m generalizing lo with
  | nil => rfl
  | cons c rest ih =>
    obtain ⟨b, x⟩ := c
    rw [Memory.wfFrom_cons] at h
    rw [Memory.byteAt_cons_other x rest (by omega)]
    exact ih h.2.2.2 (by omega)

theorem Memory.byteAt_putCell_self {a : Nat} (x : Byte) {rest : Memory} (h : rest.byteAt a = 0) :
    (Memory.putCell a x rest).byteAt a = x := by
  unfold Memory.putCell
  split
  · rename_i hx; rw [h, hx]
  · exact Memory.byteAt_cons_self a x rest

theorem Memory.byteAt_putCell_other {a c : Nat} (x : Byte) (rest : Memory) (h : c ≠ a) :
    (Memory.putCell a x rest).byteAt c = rest.byteAt c := by
  unfold Memory.putCell
  split
  · rfl
  · exact Memory.byteAt_cons_other x rest h

theorem Memory.wfFrom_putCell {lo a : Nat} (x : Byte) {rest : Memory} (hlo : lo ≤ a) (ha : a < Config.tableBytes)
    (h : Memory.wfFrom (a + 1) rest = true) : Memory.wfFrom lo (Memory.putCell a x rest) = true := by
  unfold Memory.putCell
  split
  · exact Memory.wfFrom_mono h (by omega)
  · rename_i hx; exact Memory.wfFrom_cons.mpr ⟨hlo, ha, hx, h⟩

theorem Memory.byteAt_write_self {m : Memory} (h : m.wf = true) (a : Nat) (x : Byte) :
    (m.write a x).byteAt a = x := by
  suffices H : ∀ lo, Memory.wfFrom lo m = true → (m.write a x).byteAt a = x from H 0 h
  clear h
  intro lo hlo
  induction m generalizing lo with
  | nil => exact Memory.byteAt_putCell_self x rfl
  | cons c rest ih =>
    obtain ⟨b, y⟩ := c
    have hc := Memory.wfFrom_cons.mp hlo
    unfold Memory.write
    split
    · rw [Memory.byteAt_cons_other y _ (by omega)]
      exact ih _ hc.2.2.2
    · split
      · exact Memory.byteAt_putCell_self x (Memory.byteAt_of_lt hc.2.2.2 (by omega))
      · refine Memory.byteAt_putCell_self x ?_
        rw [Memory.byteAt_cons_other y rest (by omega)]
        exact Memory.byteAt_of_lt hc.2.2.2 (by omega)

theorem Memory.byteAt_write_other (m : Memory) {a c : Nat} (x : Byte) (h : c ≠ a) :
    (m.write a x).byteAt c = m.byteAt c := by
  induction m with
  | nil => exact Memory.byteAt_putCell_other x [] h
  | cons d rest ih =>
    obtain ⟨b, y⟩ := d
    unfold Memory.write
    split
    · simp only [Memory.byteAt, ih]
    · split
      · rename_i hba
        rw [Memory.byteAt_putCell_other x rest h, Memory.byteAt_cons_other y rest (hba ▸ h)]
      · exact Memory.byteAt_putCell_other x _ h

theorem Memory.wfFrom_write {m : Memory} {lo a : Nat} (x : Byte) (h : Memory.wfFrom lo m = true) (hlo : lo ≤ a)
    (ha : a < Config.tableBytes) : Memory.wfFrom lo (m.write a x) = true := by
  induction m generalizing lo with
  | nil => exact Memory.wfFrom_putCell x hlo ha rfl
  | cons c rest ih =>
    obtain ⟨b, y⟩ := c
    have hc := Memory.wfFrom_cons.mp h
    unfold Memory.write
    split
    · rename_i hba
      exact Memory.wfFrom_cons.mpr ⟨hc.1, hc.2.1, hc.2.2.1, ih hc.2.2.2 hba⟩
    · split
      · rename_i hba
        exact Memory.wfFrom_putCell x hlo ha (hba ▸ hc.2.2.2)
      · exact Memory.wfFrom_putCell x hlo ha (Memory.wfFrom_cons.mpr ⟨by omega, hc.2⟩)

/-- A write inside the table space keeps the canonical form. -/
theorem Memory.wf_write {m : Memory} {a : Nat} (x : Byte) (h : m.wf = true) (ha : a < Config.tableBytes) :
    (m.write a x).wf = true :=
  Memory.wfFrom_write x h (Nat.zero_le _) ha

theorem Memory.wfFrom_ofBytesFrom (bytes : List Byte) (lo : Nat) (h : lo + bytes.length ≤ Config.tableBytes) :
    Memory.wfFrom lo (Memory.ofBytesFrom lo bytes) = true := by
  induction bytes generalizing lo with
  | nil => rfl
  | cons x rest ih =>
    simp only [List.length_cons] at h
    exact Memory.wfFrom_putCell x (Nat.le_refl lo) (by omega) (ih (lo + 1) (by omega))

/-- A table built from a byte list is in canonical form. -/
theorem Memory.wf_ofBytes {bytes : List Byte} {m : Memory} (h : Memory.ofBytes bytes = .ok m) : m.wf = true := by
  unfold Memory.ofBytes at h
  split at h
  · rename_i hl
    cases h
    exact Memory.wfFrom_ofBytesFrom bytes 0 (by omega)
  · cases h

theorem Memory.byteAt_ofBytesFrom_lt (bytes : List Byte) {lo a : Nat} (h : a < lo) :
    (Memory.ofBytesFrom lo bytes).byteAt a = 0 := by
  induction bytes generalizing lo with
  | nil => rfl
  | cons x rest ih =>
    rw [Memory.ofBytesFrom, Memory.byteAt_putCell_other x _ (by omega)]
    exact ih (by omega)

/-- The `k`-th byte of the list is what address `lo + k` reads as. -/
theorem Memory.byteAt_ofBytesFrom (bytes : List Byte) (lo k : Nat) :
    (Memory.ofBytesFrom lo bytes).byteAt (lo + k) = bytes.getD k 0 := by
  induction bytes generalizing lo k with
  | nil => rfl
  | cons x rest ih =>
    rw [Memory.ofBytesFrom]
    cases k with
    | zero => exact Memory.byteAt_putCell_self x (Memory.byteAt_ofBytesFrom_lt rest (by omega))
    | succ k =>
      rw [Memory.byteAt_putCell_other x _ (by omega), show lo + (k + 1) = lo + 1 + k by omega, ih (lo + 1) k]
      rfl

/-- A read of the table space answers exactly on 0..3327 (R31). -/
theorem tblRead_of_lt {m : Memory} {a : Nat} (h : a < Config.tableBytes) : tblRead m a = .ok (m.byteAt a) :=
  if_pos h

theorem tblRead_of_ge {m : Memory} {a : Nat} (h : Config.tableBytes ≤ a) : tblRead m a = .error (.tableAddress a) :=
  if_neg (by omega)

/-- The table of the reset state is in canonical form. -/
theorem reset_mem_wf : State.reset.mem.wf = true := rfl

end Sys2Proof.Machine
end

