-- ==== Sys2Proof/Laws/PerInstr.lean ====
section
/-! SUPPORT. Facts about every instruction as syntax, one lemma per constructor. -/

namespace Sys2Proof.Laws.ThreeBytes

/-- Every instruction is exactly three bytes, the last two being its operand bytes in the order `hh`, `ll`, and the
first an opcode byte under which those operand bytes are read back (R44). -/
def Statement (i : Instr) : Prop :=
  ∀ opc : OpcMap, ∃ op hh ll : Byte, encode opc i = [op, hh, ll] ∧
    (i = .nop op hh ll ∨ ∃ n, opc.byte n = op ∧ i = Instr.ofName n hh ll)

theorem flip (hh ll : Byte) : Statement (.flip hh ll) := fun _ => ⟨_, hh, ll, rfl, .inr ⟨.flip, rfl, rfl⟩⟩
theorem add (hh ll : Byte) : Statement (.add hh ll) := fun _ => ⟨_, hh, ll, rfl, .inr ⟨.add, rfl, rfl⟩⟩
theorem cpl (hh ll : Byte) : Statement (.cpl hh ll) := fun _ => ⟨_, hh, ll, rfl, .inr ⟨.cpl, rfl, rfl⟩⟩
theorem andf (hh ll : Byte) : Statement (.andf hh ll) := fun _ => ⟨_, hh, ll, rfl, .inr ⟨.andf, rfl, rfl⟩⟩
theorem rol (hh ll : Byte) : Statement (.rol hh ll) := fun _ => ⟨_, hh, ll, rfl, .inr ⟨.rol, rfl, rfl⟩⟩
theorem orf (hh ll : Byte) : Statement (.orf hh ll) := fun _ => ⟨_, hh, ll, rfl, .inr ⟨.orf, rfl, rfl⟩⟩
theorem ror (hh ll : Byte) : Statement (.ror hh ll) := fun _ => ⟨_, hh, ll, rfl, .inr ⟨.ror, rfl, rfl⟩⟩
theorem addf (hh ll : Byte) : Statement (.addf hh ll) := fun _ => ⟨_, hh, ll, rfl, .inr ⟨.addf, rfl, rfl⟩⟩
theorem fcadd (hh ll : Byte) : Statement (.fcadd hh ll) := fun _ => ⟨_, hh, ll, rfl, .inr ⟨.fcadd, rfl, rfl⟩⟩
theorem sub (hh ll : Byte) : Statement (.sub hh ll) := fun _ => ⟨_, hh, ll, rfl, .inr ⟨.sub, rfl, rfl⟩⟩
theorem subf (hh ll : Byte) : Statement (.subf hh ll) := fun _ => ⟨_, hh, ll, rfl, .inr ⟨.subf, rfl, rfl⟩⟩
theorem nop (op hh ll : Byte) : Statement (.nop op hh ll) := fun _ => ⟨op, hh, ll, rfl, .inl rfl⟩

end Sys2Proof.Laws.ThreeBytes
end

