-- ==== Sys2Proof/Laws/State.lean ====
section
/-! SUPPORT. What each update of the state does to each field, true by definition: later proofs rewrite with these and
unfold no record update. -/

namespace Sys2Proof.Machine

@[simp] theorem State.retire_st (s : State) (v : Word) : (s.retire v).st = if s.sp = 3 then .done else .run := rfl
@[simp] theorem State.retire_acc (s : State) (v : Word) : (s.retire v).acc = v := rfl
@[simp] theorem State.retire_sp (s : State) (v : Word) : (s.retire v).sp = s.sp + 1 := rfl
@[simp] theorem State.retire_algoR (s : State) (v : Word) : (s.retire v).algoR = s.algoR := rfl
@[simp] theorem State.retire_mem (s : State) (v : Word) : (s.retire v).mem = s.mem := rfl
@[simp] theorem State.retire_rst (s : State) (v : Word) : (s.retire v).rst = s.rst := rfl
@[simp] theorem State.retire_start (s : State) (v : Word) : (s.retire v).start = s.start := rfl
@[simp] theorem State.retire_seedIn (s : State) (v : Word) : (s.retire v).seedIn = s.seedIn := rfl
@[simp] theorem State.retire_algoIn (s : State) (v : Word) : (s.retire v).algoIn = s.algoIn := rfl
@[simp] theorem State.retire_draws (s : State) (v : Word) : (s.retire v).draws = s.draws := rfl

@[simp] theorem takeReset_st (s : State) : (takeReset s).st = .idle := rfl
@[simp] theorem takeReset_acc (s : State) : (takeReset s).acc = Config.freeAcc s.draws := rfl
@[simp] theorem takeReset_sp (s : State) : (takeReset s).sp = Config.freeSp s.draws := rfl
@[simp] theorem takeReset_algoR (s : State) : (takeReset s).algoR = Config.freeAlgo s.draws := rfl
@[simp] theorem takeReset_mem (s : State) : (takeReset s).mem = s.mem := rfl
@[simp] theorem takeReset_rst (s : State) : (takeReset s).rst = s.rst := rfl
@[simp] theorem takeReset_start (s : State) : (takeReset s).start = s.start := rfl
@[simp] theorem takeReset_seedIn (s : State) : (takeReset s).seedIn = s.seedIn := rfl
@[simp] theorem takeReset_algoIn (s : State) : (takeReset s).algoIn = s.algoIn := rfl
@[simp] theorem takeReset_draws (s : State) : (takeReset s).draws = s.draws + 1 := rfl

@[simp] theorem takeStart_st (s : State) : (takeStart s).st = .run := rfl
@[simp] theorem takeStart_acc (s : State) : (takeStart s).acc = s.seedIn := rfl
@[simp] theorem takeStart_sp (s : State) : (takeStart s).sp = 0 := rfl
@[simp] theorem takeStart_algoR (s : State) : (takeStart s).algoR = s.algoIn := rfl
@[simp] theorem takeStart_mem (s : State) : (takeStart s).mem = s.mem := rfl
@[simp] theorem takeStart_rst (s : State) : (takeStart s).rst = s.rst := rfl
@[simp] theorem takeStart_start (s : State) : (takeStart s).start = s.start := rfl
@[simp] theorem takeStart_seedIn (s : State) : (takeStart s).seedIn = s.seedIn := rfl
@[simp] theorem takeStart_algoIn (s : State) : (takeStart s).algoIn = s.algoIn := rfl
@[simp] theorem takeStart_draws (s : State) : (takeStart s).draws = s.draws := rfl

@[simp] theorem takeBypass_st (s : State) : (takeBypass s).st = .done := rfl
@[simp] theorem takeBypass_acc (s : State) : (takeBypass s).acc = not16 s.acc := rfl
@[simp] theorem takeBypass_sp (s : State) : (takeBypass s).sp = s.sp := rfl
@[simp] theorem takeBypass_algoR (s : State) : (takeBypass s).algoR = s.algoR := rfl
@[simp] theorem takeBypass_mem (s : State) : (takeBypass s).mem = s.mem := rfl
@[simp] theorem takeBypass_rst (s : State) : (takeBypass s).rst = s.rst := rfl
@[simp] theorem takeBypass_start (s : State) : (takeBypass s).start = s.start := rfl
@[simp] theorem takeBypass_seedIn (s : State) : (takeBypass s).seedIn = s.seedIn := rfl
@[simp] theorem takeBypass_algoIn (s : State) : (takeBypass s).algoIn = s.algoIn := rfl
@[simp] theorem takeBypass_draws (s : State) : (takeBypass s).draws = s.draws := rfl

@[simp] theorem driveInputs_st (s : State) (r b : Bool) (w : Word) (a : Byte) : (driveInputs r b w a s).st = s.st := rfl
@[simp] theorem driveInputs_acc (s : State) (r b : Bool) (w : Word) (a : Byte) : (driveInputs r b w a s).acc = s.acc := rfl
@[simp] theorem driveInputs_sp (s : State) (r b : Bool) (w : Word) (a : Byte) : (driveInputs r b w a s).sp = s.sp := rfl
@[simp] theorem driveInputs_algoR (s : State) (r b : Bool) (w : Word) (a : Byte) : (driveInputs r b w a s).algoR = s.algoR := rfl
@[simp] theorem driveInputs_mem (s : State) (r b : Bool) (w : Word) (a : Byte) : (driveInputs r b w a s).mem = s.mem := rfl
@[simp] theorem driveInputs_rst (s : State) (r b : Bool) (w : Word) (a : Byte) : (driveInputs r b w a s).rst = r := rfl
@[simp] theorem driveInputs_start (s : State) (r b : Bool) (w : Word) (a : Byte) : (driveInputs r b w a s).start = b := rfl
@[simp] theorem driveInputs_seedIn (s : State) (r b : Bool) (w : Word) (a : Byte) : (driveInputs r b w a s).seedIn = w := rfl
@[simp] theorem driveInputs_algoIn (s : State) (r b : Bool) (w : Word) (a : Byte) : (driveInputs r b w a s).algoIn = a := rfl
@[simp] theorem driveInputs_draws (s : State) (r b : Bool) (w : Word) (a : Byte) : (driveInputs r b w a s).draws = s.draws := rfl

@[simp] theorem sampleTblAddr_st (s : State) : (sampleTblAddr s).st = s.st := rfl
@[simp] theorem sampleTblAddr_acc (s : State) : (sampleTblAddr s).acc = s.acc := rfl
@[simp] theorem sampleTblAddr_sp (s : State) : (sampleTblAddr s).sp = s.sp := rfl
@[simp] theorem sampleTblAddr_algoR (s : State) : (sampleTblAddr s).algoR = s.algoR := rfl
@[simp] theorem sampleTblAddr_mem (s : State) : (sampleTblAddr s).mem = s.mem := rfl
@[simp] theorem sampleTblAddr_rst (s : State) : (sampleTblAddr s).rst = s.rst := rfl
@[simp] theorem sampleTblAddr_start (s : State) : (sampleTblAddr s).start = s.start := rfl
@[simp] theorem sampleTblAddr_seedIn (s : State) : (sampleTblAddr s).seedIn = s.seedIn := rfl
@[simp] theorem sampleTblAddr_algoIn (s : State) : (sampleTblAddr s).algoIn = s.algoIn := rfl
@[simp] theorem sampleTblAddr_draws (s : State) : (sampleTblAddr s).draws = s.draws + 1 := rfl

/-- A sample of `key` touches nothing but the draw counter (R88, log 6). -/
@[simp] theorem sampleKey_st (s : State) : (sampleKey s).st = s.st := by
  unfold sampleKey; split <;> rfl
@[simp] theorem sampleKey_acc (s : State) : (sampleKey s).acc = s.acc := by
  unfold sampleKey; split <;> rfl
@[simp] theorem sampleKey_sp (s : State) : (sampleKey s).sp = s.sp := by
  unfold sampleKey; split <;> rfl
@[simp] theorem sampleKey_algoR (s : State) : (sampleKey s).algoR = s.algoR := by
  unfold sampleKey; split <;> rfl
@[simp] theorem sampleKey_mem (s : State) : (sampleKey s).mem = s.mem := by
  unfold sampleKey; split <;> rfl
@[simp] theorem sampleKey_rst (s : State) : (sampleKey s).rst = s.rst := by
  unfold sampleKey; split <;> rfl
@[simp] theorem sampleKey_start (s : State) : (sampleKey s).start = s.start := by
  unfold sampleKey; split <;> rfl
@[simp] theorem sampleKey_seedIn (s : State) : (sampleKey s).seedIn = s.seedIn := by
  unfold sampleKey; split <;> rfl
@[simp] theorem sampleKey_algoIn (s : State) : (sampleKey s).algoIn = s.algoIn := by
  unfold sampleKey; split <;> rfl

end Sys2Proof.Machine
end

