-- ==== Sys2Proof/Laws/Step.lean ====
section
/-! SUPPORT. Said once: what an instruction can do, when the fetch answers, and which five things a step can be. -/

namespace Sys2Proof.Machine

/-- Every instruction retires with some value in `acc` and does nothing else (R87, R92). -/
theorem exec_retires (i : Instr) (s : State) : ∃ v, exec i s = .next (s.retire v) := by
  cases i <;> exact ⟨_, rfl⟩

/-- While `sp` is the index of a step the fetch reads inside the table (R32). -/
theorem fetchAddr_lt {s : State} (h : s.sp.toNat < Config.steps) : fetchAddr s + 2 < Config.tableBytes := by
  have ha := s.algoR.isLt
  simp only [fetchAddr, opAddr, baseAddr, Config.stride, Config.stepBytes, Config.tableBytes, Config.steps] at *
  omega

/-- The fetch of a step (R87) answers with the reading of the three bytes at `A`, `A + 1`, `A + 2`. -/
theorem fetchStep_ok (opc : OpcMap) {s : State} (h : s.sp.toNat < Config.steps) :
    fetchStep opc s = .ok (decodeStep opc (s.mem.byteAt (fetchAddr s)) (s.mem.byteAt (fetchAddr s + 1))
      (s.mem.byteAt (fetchAddr s + 2))) := by
  have hA := fetchAddr_lt h
  simp only [fetchStep, tblRead_of_lt (Nat.lt_trans (by omega : fetchAddr s < fetchAddr s + 2) hA),
    tblRead_of_lt (Nat.lt_trans (by omega : fetchAddr s + 1 < fetchAddr s + 2) hA), tblRead_of_lt hA]

/-- Everything a step that answers a next state can be (R90): RESET, BYPASS, the retirement of a fetched step, START,
or no change, each under its guard. -/
theorem stepWith_cases {opc : OpcMap} {s t : State} (h : stepWith opc s = .next t) :
    (s.rst = true ∧ t = takeReset s) ∨
    (s.rst = false ∧ s.st = .run ∧ s.algoR = 0 ∧ t = takeBypass s) ∨
    (s.rst = false ∧ s.st = .run ∧ s.algoR ≠ 0 ∧ ∃ i, fetchStep opc s = .ok i ∧ exec i s = .next t) ∨
    (s.rst = false ∧ s.st ≠ .run ∧ s.start = true ∧ t = takeStart s) ∨
    (s.rst = false ∧ s.st ≠ .run ∧ s.start = false ∧ t = s) := by
  unfold stepWith enabled at h
  cases hr : s.rst <;> by_cases hs : s.st = .run <;> by_cases ha : s.algoR = 0 <;> cases hb : s.start <;>
    simp only [hr, hs, ha, hb, if_true, if_false, Bool.false_eq_true] at h
  all_goals first
    | (cases h; simp_all)
    | (split at h
       · rename_i i hi
         exact .inr (.inr (.inl ⟨rfl, hs, ha, i, hi, h⟩))
       · cases h)

theorem enabled_reset {s : State} (h : s.rst = true) : enabled s = .reset := by
  simp only [enabled, h, if_true]

theorem enabled_bypass {s : State} (hr : s.rst = false) (hs : s.st = .run) (ha : s.algoR = 0) :
    enabled s = .bypass := by
  simp only [enabled, hr, hs, ha, if_true, Bool.false_eq_true, if_false]

theorem enabled_execStep {s : State} (hr : s.rst = false) (hs : s.st = .run) (ha : s.algoR ≠ 0) :
    enabled s = .execStep := by
  simp only [enabled, hr, hs, if_neg ha, if_true, Bool.false_eq_true, if_false]

theorem enabled_start {s : State} (hr : s.rst = false) (hs : s.st ≠ .run) (hb : s.start = true) :
    enabled s = .start := by
  simp only [enabled, hr, if_neg hs, hb, if_true, Bool.false_eq_true, if_false]

theorem enabled_quiet {s : State} (hr : s.rst = false) (hs : s.st ≠ .run) (hb : s.start = false) :
    enabled s = .quiet := by
  simp only [enabled, hr, if_neg hs, hb, Bool.false_eq_true, if_false]

/-- A retirement touches nothing but `acc`, `sp`, `st`. -/
theorem State.retire_untouched (s : State) (v : Word) : Untouched s (s.retire v) :=
  ⟨rfl, fun _ => rfl, rfl, rfl, rfl, rfl, rfl⟩

/-- The step `placeStep` puts in place is the one the next fetch reads (log 12). -/
theorem fetchStep_placeStep (opc : OpcMap) {s : State} (h : s.mem.wf = true) (op hh ll : Byte) :
    fetchStep opc (placeStep s op hh ll) = .ok (decodeStep opc op hh ll) := by
  have hsp : (placeStep s op hh ll).sp.toNat < Config.steps := by
    simp only [placeStep]
    split
    · rename_i hc; exact hc.2.2
    · decide
  rw [fetchStep_ok opc hsp]
  have hA := fetchAddr_lt hsp
  have hm : (placeStep s op hh ll).mem =
      ((s.mem.write (fetchAddr (placeStep s op hh ll)) op).write (fetchAddr (placeStep s op hh ll) + 1) hh).write
        (fetchAddr (placeStep s op hh ll) + 2) ll := rfl
  rw [hm]
  generalize fetchAddr (placeStep s op hh ll) = A at hA ⊢
  have w1 := Memory.wf_write op h (by omega : A < Config.tableBytes)
  have w2 := Memory.wf_write hh w1 (by omega : A + 1 < Config.tableBytes)
  rw [Memory.byteAt_write_self w2, Memory.byteAt_write_other _ ll (by omega : A + 1 ≠ A + 2),
    Memory.byteAt_write_self w1, Memory.byteAt_write_other _ ll (by omega : A ≠ A + 2),
    Memory.byteAt_write_other _ hh (by omega : A ≠ A + 1), Memory.byteAt_write_self h]

/-- Everything connecting a table can do (R43, R115). -/
theorem connectTable_cases {bytes : List Byte} {s t : State} (h : connectTable bytes s = .next t) :
    s.st ≠ .run ∧ bytes.length = Config.tableBytes ∧ t = { s with mem := Memory.ofBytesFrom 0 bytes } := by
  unfold connectTable Memory.ofBytes at h
  by_cases hs : s.st = .run
  · rw [if_pos hs] at h; cases h
  · by_cases hl : bytes.length = Config.tableBytes
    · simp only [if_neg hs, if_pos hl] at h
      cases h; exact ⟨hs, hl, rfl⟩
    · simp only [if_neg hs, if_neg hl] at h
      cases h

/-- Everything programming one byte can do (R28, R115). -/
theorem programByte_cases {addr : Nat} {x : Byte} {s t : State} (h : programByte addr x s = .next t) :
    s.st ≠ .run ∧ addr < Config.tableBytes ∧ t = { s with mem := s.mem.write addr x } := by
  unfold programByte at h
  by_cases hs : s.st = .run
  · rw [if_pos hs] at h; cases h
  · by_cases ha : addr < Config.tableBytes
    · rw [if_neg hs, if_pos ha] at h
      cases h; exact ⟨hs, ha, rfl⟩
    · rw [if_neg hs, if_neg ha] at h
      cases h

end Sys2Proof.Machine
end

