-- ==== Sys2Proof/Machine/AsmText.lean ====
section
/-! DEFINITION. Program text (rules R54, R55) as a list of characters: reading it into blocks, and writing a line. Words
are separated by spaces, a semicolon opens a comment to the end of its line, and an algorithm id is written as a byte
literal (log 18). -/

namespace Sys2Proof.Machine

/-- The mnemonics of R49. -/
def mnemonicOf : OpName → List Char
  | .flip => ['F', 'L', 'I', 'P']
  | .add => ['A', 'D', 'D']
  | .cpl => ['C', 'P', 'L']
  | .andf => ['A', 'N', 'D', 'F']
  | .rol => ['R', 'O', 'L']
  | .orf => ['O', 'R', 'F']
  | .ror => ['R', 'O', 'R']
  | .addf => ['A', 'D', 'D', 'F']
  | .fcadd => ['F', 'C', 'A', 'D', 'D']
  | .sub => ['S', 'U', 'B']
  | .subf => ['S', 'U', 'B', 'F']

/-- The operation a mnemonic names. -/
def opNamed (w : List Char) : Option OpName := OpName.all.find? fun n => mnemonicOf n == w

/-- The words of the directives and of the pseudo-instructions that are no mnemonics of R49. -/
def wordAlgo : List Char := ['.', 'a', 'l', 'g', 'o']
def wordPad : List Char := ['.', 'p', 'a', 'd']
def wordStep : List Char := ['.', 's', 't', 'e', 'p']
def wordNot : List Char := ['N', 'O', 'T']
def wordNeg : List Char := ['N', 'E', 'G']
def wordNop : List Char := ['N', 'O', 'P']

/-- The hexadecimal digits in order. -/
def hexDigits : List Char := ['0', '1', '2', '3', '4', '5', '6', '7', '8', '9', 'A', 'B', 'C', 'D', 'E', 'F']

/-- A byte literal `0x00` to `0xFF` (R54). -/
def hexByte (b : Byte) : List Char :=
  ['0', 'x', hexDigits.getD (b.toNat / 16) '0', hexDigits.getD (b.toNat % 16) '0']

/-- A line as it is written (R54). -/
def Line.text : Line → List Char
  | .known n hh ll => mnemonicOf n ++ [' '] ++ hexByte hh ++ [',', ' '] ++ hexByte ll
  | .raw op hh ll => wordStep ++ [' '] ++ hexByte op ++ [',', ' '] ++ hexByte hh ++ [',', ' '] ++ hexByte ll

/-- The value of a hexadecimal digit. -/
def digitValue (c : Char) : Option Nat := hexDigits.findIdx? (· == c)

/-- The byte a literal names (R54). -/
def byteOf : List Char → Option Byte
  | ['0', 'x', c, d] =>
    match digitValue c, digitValue d with
    | some x, some y => some (BitVec.ofNat 8 (x * 16 + y))
    | _, _ => none
  | _ => none

/-- What a line of text is made of. -/
inductive Token where
  | word (w : List Char)
  | comma
deriving DecidableEq, Repr

/-- The word being read, if any, put before the tokens that follow it. -/
def Token.flush (w : List Char) (rest : List Token) : List Token := if w = [] then rest else .word w.reverse :: rest

/-- The tokens of one line; `w` is the word being read, backwards. -/
def lexLine : List Char → List Char → List Token
  | w, [] => Token.flush w []
  | w, c :: cs =>
    if c = ';' then Token.flush w []
    else if c = ' ' then Token.flush w (lexLine [] cs)
    else if c = ',' then Token.flush w (.comma :: lexLine [] cs)
    else lexLine (c :: w) cs

/-- The lines of a text; `l` is the line being read, backwards. -/
def splitLines : List Char → List Char → List (List Char)
  | l, [] => [l.reverse]
  | l, c :: cs => if c = '\n' then l.reverse :: splitLines [] cs else splitLines (c :: l) cs

/-- An instruction line, a raw line, or a pseudo-instruction with its expansion (R54, R55). -/
def parseLine (opc : OpcMap) : List Token → Option Line
  | [.word m] =>
    if m = mnemonicOf .flip then some (Pseudo.expand opc .flip)
    else if m = wordNot then some (Pseudo.expand opc .not)
    else if m = wordNeg then some (Pseudo.expand opc .neg)
    else if m = wordNop then some (Pseudo.expand opc .nop)
    else none
  | [.word m, .word a] =>
    match byteOf a with
    | none => none
    | some n =>
      if m = mnemonicOf .rol then some (Pseudo.expand opc (.rol n))
      else if m = mnemonicOf .ror then some (Pseudo.expand opc (.ror n))
      else none
  | [.word m, .word a, .comma, .word b] =>
    match opNamed m, byteOf a, byteOf b with
    | some n, some hh, some ll => some (.known n hh ll)
    | _, _, _ => none
  | [.word m, .word o, .comma, .word a, .comma, .word b] =>
    match byteOf o, byteOf a, byteOf b with
    | some op, some hh, some ll => if m = wordStep then some (.raw op hh ll) else none
    | _, _, _ => none
  | _ => none

/-- A line of text as an instruction line. -/
def parseLineText (opc : OpcMap) (line : List Char) : Option Line := parseLine opc (lexLine [] line)

/-- A directive with one byte, `.algo <a>` or `.pad <p>` (R54).

DESIGN CHOICE, safe (log 18): R54 gives `<a>` as 0..255 and does not list it among the byte literals; the model reads
`<a>` as a byte literal too, so `.algo 0xFF` is read and `.algo 255` is read as nothing. -/
def parseDirective (w : List Char) : List Token → Option Byte
  | [.word m, .word a] => if m = w then byteOf a else none
  | _ => none

/-- One block at the head of a list of lines: `.algo`, exactly four instruction lines, an optional `.pad` (R54); and the
lines after it. -/
def parseBlock (opc : OpcMap) : List (List Token) → Option (Block × List (List Token))
  | h :: t0 :: t1 :: t2 :: t3 :: rest =>
    match parseDirective wordAlgo h, parseLine opc t0, parseLine opc t1, parseLine opc t2, parseLine opc t3 with
    | some a, some l0, some l1, some l2, some l3 =>
      match rest with
      | [] => some (⟨a, l0, l1, l2, l3, 0x00⟩, [])
      | p :: rest' =>
        match parseDirective wordPad p with
        | some x => some (⟨a, l0, l1, l2, l3, x⟩, rest')
        | none => some (⟨a, l0, l1, l2, l3, 0x00⟩, p :: rest')
    | _, _, _, _, _ => none
  | _ => none

/-- A sequence of blocks, at most `fuel` of them (R54). -/
def parseBlocks (opc : OpcMap) : Nat → List (List Token) → Option (List Block)
  | _, [] => some []
  | 0, _ :: _ => none
  | fuel + 1, t :: ts =>
    match parseBlock opc (t :: ts) with
    | none => none
    | some (b, rest) =>
      match parseBlocks opc fuel rest with
      | none => none
      | some bs => some (b :: bs)

/-- The blocks of a program text, blank lines aside (R54). -/
def parseProgram (opc : OpcMap) (text : List Char) : Option (List Block) :=
  let lines := ((splitLines [] text).map (lexLine [])).filter fun l => l != []
  parseBlocks opc lines.length lines

/-- The table a program text assembles to (R54). -/
def assembleText (opc : OpcMap) (text : List Char) : Option (List Byte) :=
  match parseProgram opc text with
  | none => none
  | some prog => assemble opc prog

end Sys2Proof.Machine
end

