-- ==== Sys2Proof/Tests/Slice0.lean ====
section
/-! SUPPORT. The model's own tests. Expected results are those of `spec/95_test_vectors.md` (sections 2 to 6), words are
written out from rule R44 and the default bytes of rule R49. After them, for each obligation with hypotheses, a concrete
case that meets them. -/

namespace Sys2Proof.Tests
open Sys2Proof.Machine

/-- A run of algorithm id 1 at step 0 with `acc = v`. -/
def atStep0 (v : Word) : State := { State.reset with st := .run, acc := v, algoR := 1 }

/-- `acc` after an instruction that answers a next state. -/
def accOf : Host.Outcome State Fault Refusal → Option Word
  | .next s => some s.acc
  | .fault _ => none
  | .refused _ => none

/-- `st`, `acc`, `sp`, `algo_r` after a step that answers a next state. -/
def regsOf : Host.Outcome State Fault Refusal → Option (FsmState × Word × StepPtr × Byte)
  | .next s => some (s.st, s.acc, s.sp, s.algoR)
  | .fault _ => none
  | .refused _ => none

/-! One or two vectors per instruction -/

theorem test_flip : accOf (exec (.flip 0xAB 0xCD) (atStep0 0x1234)) = some 0x3412 := by decide
theorem test_flip_equal_bytes : accOf (exec (.flip 0x00 0x00) (atStep0 0xABAB)) = some 0xABAB := by decide
theorem test_add : accOf (exec (.add 0x43 0x21) (atStep0 0x1234)) = some 0x5555 := by decide
theorem test_add_carry_between_bytes : accOf (exec (.add 0x00 0x01) (atStep0 0x00FF)) = some 0x0100 := by decide
theorem test_cpl_unsigned_not_less : accOf (exec (.cpl 0x80 0x01) (atStep0 0x1234)) = some 0xEDCB := by decide
theorem test_cpl_unsigned_less : accOf (exec (.cpl 0x01 0x80) (atStep0 0x1234)) = some 0xEDCC := by decide
theorem test_andf : accOf (exec (.andf 0x0F 0xF0) (atStep0 0xABCD)) = some 0xA00D := by decide
theorem test_andf_low_byte : accOf (exec (.andf 0xFF 0x00) (atStep0 0xABCD)) = some 0x00CD := by decide
theorem test_rol_17 : accOf (exec (.rol 0x11 0x00) (atStep0 0x1234)) = some 0x2468 := by decide
theorem test_rol_240 : accOf (exec (.rol 0xF0 0x07) (atStep0 0x1234)) = some 0x1234 := by decide
theorem test_orf : accOf (exec (.orf 0x0F 0xF0) (atStep0 0xA0C0)) = some 0xF0CF := by decide
theorem test_orf_high_byte : accOf (exec (.orf 0x00 0xFF) (atStep0 0x0000)) = some 0xFF00 := by decide
theorem test_ror : accOf (exec (.ror 0x00 0x01) (atStep0 0x8001)) = some 0xC000 := by decide
theorem test_ror_31 : accOf (exec (.ror 0x00 0x1F) (atStep0 0x1234)) = some 0x2468 := by decide
theorem test_addf : accOf (exec (.addf 0x00 0x01) (atStep0 0x1234)) = some 0x1334 := by decide
theorem test_addf_wraps : accOf (exec (.addf 0x00 0x80) (atStep0 0x8000)) = some 0x0000 := by decide
theorem test_fcadd_natural : accOf (exec (.fcadd 0x80 0x01) (atStep0 0x0100)) = some 0x8002 := by decide
theorem test_fcadd_flipped : accOf (exec (.fcadd 0x01 0x02) (atStep0 0x1234)) = some 0x3613 := by decide
theorem test_sub : accOf (exec (.sub 0x43 0x21) (atStep0 0x1234)) = some 0xCF13 := by decide
theorem test_sub_borrow : accOf (exec (.sub 0x00 0x01) (atStep0 0x0100)) = some 0x00FF := by decide
theorem test_subf : accOf (exec (.subf 0x00 0x01) (atStep0 0x1234)) = some 0x1134 := by decide
theorem test_subf_wraps : accOf (exec (.subf 0x01 0x00) (atStep0 0x0000)) = some 0xFFFF := by decide
theorem test_nop : accOf (exec (.nop 0x2B 0x00 0x01) (atStep0 0xFFFF)) = some 0xFFFF := by decide
theorem test_nop_counts : regsOf (exec (.nop 0x00 0xAA 0x55) (atStep0 0x1538)) = some (.run, 0x1538, 1, 1) := by decide

/-! Decoding: for every constructor a step word written out bit by bit, `op` in 23:16, `hh` in 15:8, `ll` in 7:0 -/

theorem test_decode_flip : decodeTableWord 24 0b00000101_10101011_11001101 = some (.flip 0xAB 0xCD) := by decide
theorem test_decode_add : decodeTableWord 24 0b00010100_00010010_00110100 = some (.add 0x12 0x34) := by decide
theorem test_decode_cpl : decodeTableWord 24 0b00101010_00000001_00000010 = some (.cpl 0x01 0x02) := by decide
theorem test_decode_andf : decodeTableWord 24 0b00110111_00001111_11110000 = some (.andf 0x0F 0xF0) := by decide
theorem test_decode_rol : decodeTableWord 24 0b01001100_00000100_00000000 = some (.rol 0x04 0x00) := by decide
theorem test_decode_orf : decodeTableWord 24 0b01010010_00000001_10000000 = some (.orf 0x01 0x80) := by decide
theorem test_decode_ror : decodeTableWord 24 0b01101011_01110111_00011111 = some (.ror 0x77 0x1F) := by decide
theorem test_decode_addf : decodeTableWord 24 0b01110101_00110100_00010010 = some (.addf 0x34 0x12) := by decide
theorem test_decode_fcadd : decodeTableWord 24 0b01111110_00000010_00000001 = some (.fcadd 0x02 0x01) := by decide
theorem test_decode_sub : decodeTableWord 24 0b10011000_11111111_11111111 = some (.sub 0xFF 0xFF) := by decide
theorem test_decode_subf : decodeTableWord 24 0b11111000_00110100_00010010 = some (.subf 0x34 0x12) := by decide
theorem test_decode_nop : decodeTableWord 24 0b00000000_10101010_01010101 = some (.nop 0x00 0xAA 0x55) := by decide
theorem test_decode_bytes_in_address_order :
    decode defaultOpc [0x14, 0x12, 0x34, 0x2A] = .ok (.add 0x12 0x34, [0x2A]) := rfl
theorem test_decode_truncated : decode defaultOpc [0x14, 0x12] = .error .truncated := rfl
theorem test_encode_subf : encode defaultOpc (.subf 0x34 0x12) = [0xF8, 0x34, 0x12] := by decide

/-! WellFormed: the one check, and an ill-formed term it refuses -/

theorem test_known_byte_is_no_nop : Instr.wellFormed defaultOpc (.nop 0x05 0x00 0x00) = false := by decide
theorem test_unknown_byte_is_nop : Instr.wellFormed defaultOpc (.nop 0x04 0x00 0x00) = true := by decide
theorem test_equal_bytes_are_no_map : ¬({ defaultOpc with subf := 0x98 } : OpcMap).Injective := by decide

/-! The interpreter: the rows of the state trace of program P1 (section 5), one step each -/

/-- Program P1's block at addresses 13 to 25. -/
def p1 : Memory :=
  Memory.ofBytesFrom 13 [0x05, 0x00, 0x00, 0x14, 0x12, 0x34, 0x2A, 0x01, 0x02, 0x4C, 0x04, 0x00, 0x00]

/-- P1's run with `acc = v` before step `i`. -/
def p1At (v : Word) (i : StepPtr) : State := { State.reset with st := .run, acc := v, sp := i, algoR := 1, mem := p1 }

theorem test_start : regsOf (step { State.reset with start := true, seedIn := 0x1234, algoIn := 1 })
    = some (.run, 0x1234, 0, 1) := by decide
theorem test_exec_step1 : regsOf (step (p1At 0x3412 1)) = some (.run, 0x4646, 2, 1) := by decide
theorem test_exec_step2 : regsOf (step (p1At 0x4646 2)) = some (.run, 0xB9BA, 3, 1) := by decide
theorem test_exec_step3_ends_the_run : regsOf (step (p1At 0xB9BA 3)) = some (.done, 0x9BAB, 4, 1) := by decide
theorem test_start_while_busy_is_ignored :
    regsOf (step { p1At 0x3412 1 with start := true, seedIn := 0xFFFF, algoIn := 0 }) = some (.run, 0x4646, 2, 1) := by
  decide
theorem test_bypass_zero_seed : regsOf (step { State.reset with st := .run }) = some (.done, 0xFFFF, 0, 0) := by decide
theorem test_reset_wins : (regsOf (step { p1At 0x3412 1 with rst := true, start := true })).map Prod.fst = some .idle := by
  rfl
theorem test_idle_waits : regsOf (step State.reset) = some (.idle, 0, 0, 0) := by decide
theorem test_placed_word_runs : regsOf (step (State.reset.withFetchWord 24 0x141234)) = some (.run, 0x1234, 1, 1) := by
  decide
theorem test_last_step_addresses :
    requestedAddrs { State.reset with st := .run, algoR := 0xFF, sp := 3 } = [3324, 3325, 3326] := by decide
theorem test_first_step_addresses :
    requestedAddrs { State.reset with st := .run, algoR := 0x80, sp := 2 } = [1670, 1671, 1672] := by decide
theorem test_table_edge : tblRead p1 3327 = .ok 0x00 ∧ tblRead p1 3328 = .error (.tableAddress 3328) := ⟨rfl, rfl⟩
theorem test_short_table_refused : Memory.ofBytes (List.replicate 3327 0x00) = .error (.tableLength 3327) := by
  simp only [Memory.ofBytes, List.length_replicate]; rfl
theorem test_write_zero_unlists : Memory.write [(13, 0x05), (16, 0x14)] 13 0x00 = [(16, 0x14)] := by decide
theorem test_neg_assembles : (Pseudo.neg.expand defaultOpc).bytes defaultOpc = [0x2A, 0x00, 0x01] := by decide
theorem test_nop_byte : nopByte defaultOpc = 0x00 := by decide
theorem test_line_text :
    Line.text (.known .add 0x12 0x34) = ['A', 'D', 'D', ' ', '0', 'x', '1', '2', ',', ' ', '0', 'x', '3', '4'] := by decide
theorem test_text_assembles : parseLineText defaultOpc
    [' ', 'C', 'P', 'L', ' ', ' ', '0', 'x', '0', '1', ',', ' ', '0', 'x', '0', '2', ' ', ';', ' ', '2', 'A']
      = some (.known .cpl 0x01 0x02) := by decide

/-! Witnesses: the hypotheses of each obligation that has any are met together -/

theorem witness_injective_and_well_formed :
    defaultOpc.Injective ∧ Instr.wellFormed defaultOpc (.nop 0x00 0xAA 0x55) = true ∧
      Instr.wellFormed defaultOpc (.subf 0x34 0x12) = true := by decide
theorem witness_unknown_opcode : defaultOpc.Injective ∧ ∀ n, defaultOpc.byte n ≠ 0x00 :=
  ⟨by decide, fun n => by cases n <;> decide⟩
theorem witness_unknown_opcode_as_bool : defaultOpc.known 0xFF = false := by decide
theorem witness_rotation_bit_bounds : (0 : Nat) < 16 ∧ (15 : Nat) < 16 ∧ (15 : BitVec 4) ≠ 0 := by decide
theorem witness_amount_bytes :
    (0xF0 : Byte).toNat % 16 = 0 ∧ (0x11 : Byte).toNat % 16 = (0x01 : Byte).toNat % 16 := by decide
theorem witness_residue_bound : (65535 : Nat) < 65536 := by decide

theorem witness_frame_mid_program :
    exec (.add 0x43 0x21) (atStep0 0x1234) = .next ((atStep0 0x1234).retire 0x5555) := rfl
theorem witness_frame_last_step :
    exec (.rol 0x04 0x00) (p1At 0xB9BA 3) = .next ((p1At 0xB9BA 3).retire 0x9BAB) := rfl

theorem witness_fetched_step :
    (p1At 0x3412 1).rst = false ∧ (p1At 0x3412 1).st = .run ∧ (p1At 0x3412 1).algoR ≠ 0 ∧
      tblRead (p1At 0x3412 1).mem ((p1At 0x3412 1).algoR.toNat * 13 + (p1At 0x3412 1).sp.toNat * 3) = .ok 0x14 ∧
      tblRead (p1At 0x3412 1).mem ((p1At 0x3412 1).algoR.toNat * 13 + (p1At 0x3412 1).sp.toNat * 3 + 1) = .ok 0x12 ∧
      tblRead (p1At 0x3412 1).mem ((p1At 0x3412 1).algoR.toNat * 13 + (p1At 0x3412 1).sp.toNat * 3 + 2) = .ok 0x34 :=
  ⟨rfl, rfl, by decide, rfl, rfl, rfl⟩
theorem witness_exec_transition :
    (p1At 0xB9BA 3).rst = false ∧ (p1At 0xB9BA 3).st = .run ∧ (p1At 0xB9BA 3).algoR ≠ 0 ∧ (p1At 0xB9BA 3).sp.toNat < 4 := by
  decide

/-- A bypass in progress. -/
def bypassing : State := { State.reset with st := .run, acc := 0x1234 }
theorem witness_bypass : bypassing.rst = false ∧ bypassing.st = .run ∧ bypassing.algoR = 0 := by decide

/-- A finished bypass with a start command on the port. -/
def doneAndStarted : State :=
  { State.reset with st := .done, acc := 0xEDCB, start := true, seedIn := 0x1234, algoIn := 1, mem := p1 }
theorem witness_start :
    doneAndStarted.rst = false ∧ doneAndStarted.start = true ∧ doneAndStarted.st ≠ .run ∧
      stepWith defaultOpc doneAndStarted = .next (takeStart doneAndStarted) := ⟨rfl, rfl, by decide, rfl⟩
theorem witness_quiet : State.reset.rst = false ∧ State.reset.start = false ∧ State.reset.st ≠ .run := by decide

/-- A reset request in the middle of a run. -/
def resetting : State := { p1At 0x3412 1 with rst := true }
theorem witness_reset : resetting.rst = true ∧ resetting.st = .run := by decide
theorem witness_running_step_program :
    (p1At 0x3412 1).rst = false ∧ (p1At 0x3412 1).st = .run ∧
      stepWith defaultOpc (p1At 0x3412 1) = .next ((p1At 0x3412 1).retire 0x4646) := ⟨rfl, rfl, rfl⟩
theorem witness_running_step_bypass :
    bypassing.rst = false ∧ bypassing.st = .run ∧ stepWith defaultOpc bypassing = .next (takeBypass bypassing) :=
  ⟨rfl, rfl, rfl⟩
theorem witness_done : done doneAndStarted = true := by decide

theorem witness_inv_first_address : Inv (atStep0 0x1234) ∧ requestedAddrs (atStep0 0x1234) = [13, 14, 15] :=
  ⟨⟨by decide, by decide, by decide, by decide⟩, by decide⟩

/-- The last step of the last block. -/
def lastStep : State := { State.reset with st := .run, acc := 0x1538, sp := 3, algoR := 0xFF }
theorem witness_inv_last_address : Inv lastStep ∧ requestedAddrs lastStep = [3324, 3325, 3326] :=
  ⟨⟨by decide, by decide, by decide, by decide⟩, by decide⟩
theorem witness_inv_kept_by_exec : Inv lastStep ∧ step lastStep = .next (lastStep.retire 0x1538) :=
  ⟨witness_inv_last_address.1, rfl⟩
theorem witness_inv_kept_by_bypass : Inv bypassing ∧ step bypassing = .next (takeBypass bypassing) :=
  ⟨⟨by decide, by decide, by decide, by decide⟩, rfl⟩
theorem witness_inv_kept_by_start : Inv doneAndStarted ∧ step doneAndStarted = .next (takeStart doneAndStarted) :=
  ⟨⟨by decide, by decide, by decide, by decide⟩, rfl⟩
theorem witness_inv_kept_by_reset : Inv resetting ∧ step resetting = .next (takeReset resetting) :=
  ⟨⟨by decide, by decide, by decide, by decide⟩, rfl⟩
theorem witness_inv_kept_by_host_move :
    Inv doneAndStarted ∧ hostMove (.programByte 3327 0xEE) doneAndStarted
      = .next { doneAndStarted with mem := doneAndStarted.mem.write 3327 0xEE } :=
  ⟨witness_inv_kept_by_start.1, rfl⟩

theorem witness_host_drives : hostMove (.drive true true 0xFFFF 0xFF) lastStep = .next (driveInputs true true 0xFFFF 0xFF lastStep) :=
  rfl
theorem witness_host_reads_ports :
    hostMove .readKey State.reset = .next (sampleKey State.reset) ∧
      hostMove .readTblAddr State.reset = .next (sampleTblAddr State.reset) := ⟨rfl, rfl⟩
theorem witness_equal_tables : p1.wf = true ∧ ∀ a, tblRead p1 a = tblRead p1 a := ⟨by decide, fun _ => rfl⟩

theorem witness_connect_in_run : lastStep.st = .run := rfl
theorem witness_connect_wrong_length :
    State.reset.st ≠ .run ∧ (List.replicate 3329 (0x05 : Byte)).length ≠ 3328 ∧
      (List.replicate 3327 (0x05 : Byte)).length ≠ 3328 := by
  simp only [List.length_replicate]; decide
theorem witness_connect_right_length :
    State.reset.st ≠ .run ∧ (List.replicate 3328 (0x05 : Byte)).length = 3328 := by
  simp only [List.length_replicate]; decide
theorem witness_program_outside : State.reset.st ≠ .run ∧ 3328 ≤ 3328 := by decide
theorem witness_program_last_byte :
    doneAndStarted.st ≠ .run ∧ 3327 < 3328 ∧ doneAndStarted.mem.wf = true ∧ (0 : Nat) ≠ 3327 := by decide

theorem witness_run_inv_mid_program :
    RunInv defaultOpc 0x1234 (p1At 0x3412 1) ∧ (p1At 0x3412 1).rst = false ∧ (p1At 0x3412 1).st = .run ∧
      stepWith defaultOpc (p1At 0x3412 1) = .next ((p1At 0x3412 1).retire 0x4646) :=
  ⟨⟨by decide, by decide, fun _ _ => ⟨by decide, by decide⟩, by decide⟩, rfl, rfl, rfl⟩

/-- The bypass of seed 1234, ended, with `start` low. -/
def doneQuiet : State := { State.reset with st := .done, acc := 0xEDCB }
theorem witness_run_inv_done :
    RunInv defaultOpc 0x1234 doneQuiet ∧ doneQuiet.rst = false ∧ doneQuiet.start = false ∧
      stepWith defaultOpc doneQuiet = .next doneQuiet :=
  ⟨⟨by decide, by decide, by decide, fun _ => ⟨.inl ⟨rfl, rfl⟩, by decide⟩⟩, rfl, rfl, rfl⟩

/-- A table that is 0xFF in block 0 and on the padding bytes, 0x00 elsewhere. -/
def paddingOnly (a : Nat) : Byte := if a < 13 ∨ a % 13 = 12 then 0xFF else 0x00
theorem witness_unread_bytes :
    (∀ b k : Nat, 1 ≤ b → b < 256 → k < 12 → paddingOnly (b * 13 + k) = (fun _ => (0x00 : Byte)) (b * 13 + k)) ∧
      paddingOnly 12 ≠ 0x00 := by
  refine ⟨fun b k hb _ hk => if_neg ?_, by decide⟩
  omega
theorem witness_unknown_block :
    (0x07 : Byte) ≠ 0 ∧ ∀ i : Nat, i < 4 → defaultOpc.known ((fun _ => (0x00 : Byte)) ((0x07 : Byte).toNat * 13 + i * 3)) = false :=
  ⟨by decide, fun _ _ => by show defaultOpc.known 0x00 = false; decide⟩

/-- An input that asks for another run. -/
def distraction : Stimulus := ⟨true, 0xFFFF, 0x00⟩
theorem witness_run_of_four :
    State.reset.st ≠ .run ∧ [distraction, distraction, distraction, distraction].length = runLength 0xFF := by decide
theorem witness_run_of_one : doneAndStarted.st ≠ .run ∧ [distraction].length = runLength 0x00 := by decide
theorem witness_run_not_over :
    State.reset.st ≠ .run ∧ [distraction, distraction, distraction].length < runLength 0x01 ∧
      ([] : List Stimulus).length < runLength 0x00 := by decide
theorem witness_equal_runs :
    doneAndStarted.st ≠ .run ∧ { State.reset with mem := p1 }.st ≠ .run ∧
      ∀ x, tblRead doneAndStarted.mem x = tblRead { State.reset with mem := p1 }.mem x :=
  ⟨by decide, by decide, fun _ => rfl⟩
theorem witness_engines :
    runEngines defaultOpc [(1, .tick), (0, .host (.drive false true 0x1234 0x01)), (5, .tick)] [State.reset, bypassing]
      = .next [driveInputs false true 0x1234 0x01 State.reset, takeBypass bypassing] ∧
      [State.reset, bypassing][1]? = some bypassing := ⟨rfl, rfl⟩

/-- Program P4's block 0, `ADD 0xFF, 0xFF` four times and padding 0xFF. -/
def p4 : Block := ⟨0x00, .known .add 0xFF 0xFF, .known .add 0xFF 0xFF, .known .add 0xFF 0xFF, .known .add 0xFF 0xFF, 0xFF⟩
theorem test_block_bytes : p4.bytes defaultOpc
    = [0x14, 0xFF, 0xFF, 0x14, 0xFF, 0xFF, 0x14, 0xFF, 0xFF, 0x14, 0xFF, 0xFF, 0xFF] := by decide
theorem witness_assembled :
    (∃ bytes, assemble defaultOpc [p4] = some bytes) ∧ p4 ∈ [p4] ∧ (12 : Nat) < 13 ∧
      ∀ b ∈ [p4], b.algo ≠ 0x01 :=
  ⟨⟨_, if_pos (by decide)⟩, by decide, by decide, by decide⟩

end Sys2Proof.Tests
end

-- ==== The table is read only (rule R30) ====
section
namespace Sys2Proof.Machine

/-- An instruction retires (`exec_retires`), and a retirement keeps the table. -/
theorem exec_keeps_mem {i : Instr} {s t : State} (h : exec i s = .next t) : t.mem = s.mem := by
  obtain ⟨v, hv⟩ := exec_retires i s
  obtain rfl : s.retire v = t := Host.Outcome.next.inj (hv.symm.trans h)
  exact s.retire_mem v

theorem stepWith_keeps_mem {opc : OpcMap} {s t : State} (h : stepWith opc s = .next t) : t.mem = s.mem := by
  obtain ⟨-, rfl⟩ | ⟨-, -, -, rfl⟩ | ⟨-, -, -, _, -, hexec⟩ | ⟨-, -, -, rfl⟩ | ⟨-, -, -, rfl⟩ := stepWith_cases h
  case inl => exact takeReset_mem s
  case inr.inl => exact takeBypass_mem s
  case inr.inr.inl => exact exec_keeps_mem hexec
  case inr.inr.inr.inl => exact takeStart_mem s
  case inr.inr.inr.inr => rfl

theorem hostMove_drive_keeps_mem {r b : Bool} {w : Word} {a : Byte} {s t : State}
    (h : hostMove (.drive r b w a) s = .next t) : t.mem = s.mem := by
  obtain rfl : driveInputs r b w a s = t := Host.Outcome.next.inj h
  exact driveInputs_mem s r b w a

theorem hostMove_readKey_keeps_mem {s t : State} (h : hostMove .readKey s = .next t) : t.mem = s.mem := by
  obtain rfl : sampleKey s = t := Host.Outcome.next.inj h
  exact sampleKey_mem s

theorem hostMove_readTblAddr_keeps_mem {s t : State} (h : hostMove .readTblAddr s = .next t) : t.mem = s.mem := by
  obtain rfl : sampleTblAddr s = t := Host.Outcome.next.inj h
  exact sampleTblAddr_mem s

end Sys2Proof.Machine

open Sys2Proof.Machine

/-- Settles O42: no instruction, no transition and no port move reaches the table (R30). -/
theorem theTableIsReadOnly : Obligations.TheTableIsReadOnly := by
  unfold Obligations.TheTableIsReadOnly
  refine ⟨fun _ _ _ => exec_keeps_mem, fun _ _ _ => stepWith_keeps_mem,
    fun _ _ _ _ _ _ => hostMove_drive_keeps_mem, ?_⟩
  rintro s t (hkey | haddr)
  · exact hostMove_readKey_keeps_mem hkey
  · exact hostMove_readTblAddr_keeps_mem haddr

end

-- ==== The opcode byte alone selects the operation (rule R48) ====
section
namespace Sys2Proof

theorem decodeStep_byte {opc : OpcMap} (h : opc.Injective) (n : OpName) (hh ll : Byte) :
    decodeStep opc (opc.byte n) hh ll = Instr.ofName n hh ll := by
  simp only [decodeStep, OpcMap.lookup_byte h]

theorem decodeStep_of_unknown {opc : OpcMap} {op : Byte} (h : ∀ n, opc.byte n ≠ op) (hh ll : Byte) :
    decodeStep opc op hh ll = .nop op hh ll := by
  simp only [decodeStep, OpcMap.lookup_eq_none.mpr h]

/-- The 256 byte values in ascending order. -/
def byteValues : List Byte := (List.range 256).map (BitVec.ofNat 8)

theorem mem_byteValues (b : Byte) : b ∈ byteValues :=
  List.mem_map.mpr ⟨b.toNat, List.mem_range.mpr b.isLt, by simp⟩

theorem nodup_byteValues : byteValues.Nodup := by
  refine List.Nodup.map_on (fun x hx y hy hxy => ?_) List.nodup_range
  rw [List.mem_range] at hx hy
  simpa [Nat.mod_eq_of_lt hx, Nat.mod_eq_of_lt hy] using congrArg BitVec.toNat hxy

/-- The known byte values are the bytes of the eleven names, each once. -/
theorem OpcMap.known_byteValues_perm {opc : OpcMap} (h : opc.Injective) :
    (byteValues.filter opc.known).Perm (OpName.all.map opc.byte) := by
  refine (List.perm_ext_iff_of_nodup (nodup_byteValues.filter _) h).mpr fun b => ?_
  simp only [List.mem_filter, mem_byteValues, true_and, OpcMap.known_iff, List.mem_map, OpName.mem_all]

theorem OpcMap.countP_known {opc : OpcMap} (h : opc.Injective) : byteValues.countP opc.known = 11 :=
  List.countP_eq_length_filter.trans (OpcMap.known_byteValues_perm h).length_eq

/-- R48: all but eleven of the 256 byte values select `nop`. -/
theorem OpcMap.countP_not_known {opc : OpcMap} (h : opc.Injective) :
    byteValues.countP (fun b => !opc.known b) = 245 := by
  have htotal : byteValues.length = byteValues.countP opc.known + byteValues.countP (fun b => !opc.known b) := by
    simpa using byteValues.length_eq_countP_add_countP opc.known
  have hlength : byteValues.length = 256 := by simp [byteValues]
  rw [OpcMap.countP_known h, hlength] at htotal
  omega

end Sys2Proof

open Sys2Proof

/-- Settles O3: the opcode byte is looked up alone, and the lookup answers for exactly eleven of the 256 bytes (R48). -/
theorem opcodeByteAloneSelectsTheOperation : Obligations.OpcodeByteAloneSelectsTheOperation := by
  unfold Obligations.OpcodeByteAloneSelectsTheOperation
  refine fun opc hinj => ⟨decodeStep_byte hinj, fun _ => decodeStep_of_unknown, ?_, fun _ _ _ _ => rfl⟩
  have hcount := OpcMap.countP_not_known hinj
  rwa [byteValues, List.countP_map] at hcount

end

-- ==== The datapath primitives (rules R57 to R64, R67) ====
section
namespace Sys2Proof.Machine

theorem add16_toNat (a b : Word) : (add16 a b).toNat = (a.toNat + b.toNat) % 65536 := BitVec.toNat_add a b

theorem sub16_toNat (a b : Word) : (sub16 a b).toNat = (a.toNat + 65536 - b.toNat) % 65536 := by
  have hb := b.isLt
  rw [sub16, BitVec.toNat_sub]
  congr 1
  omega

theorem not16_toNat (v : Word) : (not16 v).toNat = 65535 - v.toNat := BitVec.toNat_not

/-- Of the residues 0..65535, the difference is the only one congruent to `a − b` (R58). -/
theorem eq_sub16_toNat_iff {r : Nat} (hr : r < 65536) (a b : Word) :
    r = (sub16 a b).toNat ↔ ((r : Int) - ((a.toNat : Int) - (b.toNat : Int))) % 65536 = 0 := by
  have ha := a.isLt
  have hb := b.isLt
  rw [sub16_toNat]
  omega

/-- Two's complement: to subtract is to add the complement and one (R58). -/
theorem sub16_eq_add16_not16 (a b : Word) : sub16 a b = add16 a (add16 (not16 b) 1) := by
  calc a - b = a + -b := BitVec.sub_eq_add_neg a b
    _ = a + (~~~b + 1) := congrArg (a + ·) (BitVec.neg_eq_not_add b)

theorem getLsbD_not16 (v : Word) {i : Nat} (hi : i < 16) : (not16 v).getLsbD i = !v.getLsbD i := by
  simp [not16, hi]

theorem getLsbD_swap16 (v : Word) {i : Nat} (hi : i < 16) : (swap16 v).getLsbD i = v.getLsbD ((i + 8) % 16) := by
  rw [swap16, BitVec.getLsbD_append]
  split
  case isTrue hlow =>
    have hbit : 8 + i = (i + 8) % 16 := by omega
    simp [hiByte, hlow, hbit]
  case isFalse hhigh =>
    have hbit : i - 8 = (i + 8) % 16 := by omega
    have hbyte : i - 8 < 8 := by omega
    simp [loByte, hbyte, ← hbit]

theorem swap16_toNat (v : Word) : (swap16 v).toNat = v.toNat % 256 * 256 + v.toNat / 256 := by
  have hv := v.isLt
  have hlo : (loByte v).toNat = v.toNat % 256 := by simp [loByte]
  have hhi : (hiByte v).toNat = v.toNat / 256 := by
    rw [hiByte, BitVec.extractLsb'_toNat, Nat.shiftRight_eq_div_pow]
    omega
  rw [swap16, BitVec.toNat_append, ← Nat.shiftLeft_add_eq_or_of_lt (hiByte v).isLt, hlo, hhi, Nat.shiftLeft_eq]

/-- Bit 8 places on, twice, is 16 places on: the bit itself. -/
theorem swap16_swap16 (v : Word) : swap16 (swap16 v) = v := by
  refine BitVec.eq_of_getLsbD_eq fun i hi => ?_
  have hbit : ((i + 8) % 16 + 8) % 16 = i := by omega
  rw [getLsbD_swap16 _ hi, getLsbD_swap16 v (Nat.mod_lt _ (by decide)), hbit]

theorem rotl16_zero (v : Word) : rotl16 v 0 = v := if_pos rfl

theorem rotr16_zero (v : Word) : rotr16 v 0 = v := if_pos rfl

/-- The guard against a shift by 16 changes nothing: the rotation is the library's (R62). -/
theorem rotl16_eq_rotateLeft (v : Word) (n : BitVec 4) : rotl16 v n = v.rotateLeft n.toNat := by
  by_cases hn : n = 0
  case pos => subst hn; rw [rotl16_zero]; simp [BitVec.rotateLeft_def, BitVec.ushiftRight_eq_zero]
  case neg => rw [rotl16, if_neg hn, BitVec.rotateLeft_def, Nat.mod_eq_of_lt n.isLt]

/-- The guard against a shift by 16 changes nothing: the rotation is the library's (R63). -/
theorem rotr16_eq_rotateRight (v : Word) (n : BitVec 4) : rotr16 v n = v.rotateRight n.toNat := by
  by_cases hn : n = 0
  case pos => subst hn; rw [rotr16_zero]; simp [BitVec.rotateRight_def]
  case neg => rw [rotr16, if_neg hn, BitVec.rotateRight_def, Nat.mod_eq_of_lt n.isLt]

theorem getLsbD_rotl16 (v : Word) (n : BitVec 4) {i : Nat} (hi : i < 16) :
    (rotl16 v n).getLsbD i = v.getLsbD ((i + 16 - n.toNat) % 16) := by
  have hn := n.isLt
  rw [rotl16_eq_rotateLeft, BitVec.getLsbD_rotateLeft_of_le hn]
  by_cases hwrap : i < n.toNat
  case pos =>
    have hbit : 16 - n.toNat + i = (i + 16 - n.toNat) % 16 := by omega
    simp [hwrap, hbit]
  case neg =>
    have hbit : i - n.toNat = (i + 16 - n.toNat) % 16 := by omega
    simp [hwrap, hi, hbit]

theorem getLsbD_rotr16 (v : Word) (n : BitVec 4) {i : Nat} (hi : i < 16) :
    (rotr16 v n).getLsbD i = v.getLsbD ((i + n.toNat) % 16) := by
  have hn := n.isLt
  rw [rotr16_eq_rotateRight, BitVec.getLsbD_rotateRight_of_lt hn]
  by_cases hwrap : i < 16 - n.toNat
  case pos =>
    have hbit : n.toNat + i = (i + n.toNat) % 16 := by omega
    simp [hwrap, hbit]
  case neg =>
    have hbit : i - (16 - n.toNat) = (i + n.toNat) % 16 := by omega
    simp [hwrap, hi, hbit]

/-- The two shifted parts of a rotated number of `k + m` bits share no bit, so their union is their sum: the low `m`
bits moved up by `k`, over the high `k` bits moved down by `m`. -/
theorem shiftLeft_mod_or_shiftRight {v k m : Nat} (hv : v < 2 ^ (k + m)) :
    v <<< k % 2 ^ (k + m) ||| v >>> m = v * 2 ^ k % 2 ^ (k + m) + v / 2 ^ m := by
  have hlow : v * 2 ^ k % 2 ^ (k + m) = (v % 2 ^ m) <<< k := by
    rw [Nat.shiftLeft_eq, pow_add, mul_comm v, Nat.mul_mod_mul_left, mul_comm]
  have hhigh : v / 2 ^ m < 2 ^ k := Nat.div_lt_of_lt_mul (by rwa [← pow_add, add_comm m])
  rw [Nat.shiftLeft_eq, Nat.shiftRight_eq_div_pow, hlow, Nat.shiftLeft_add_eq_or_of_lt hhigh]

theorem rotl16_toNat (v : Word) (n : BitVec 4) :
    (rotl16 v n).toNat = v.toNat * 2 ^ n.toNat % 65536 + v.toNat / 2 ^ (16 - n.toNat) := by
  have hsum : n.toNat + (16 - n.toNat) = 16 := by have := n.isLt; omega
  have hor := shiftLeft_mod_or_shiftRight (v := v.toNat) (k := n.toNat) (m := 16 - n.toNat) (by rw [hsum]; exact v.isLt)
  rw [hsum] at hor
  rw [rotl16_eq_rotateLeft, BitVec.toNat_rotateLeft, Nat.mod_eq_of_lt n.isLt]
  exact hor

theorem rotr16_toNat (v : Word) (n : BitVec 4) :
    (rotr16 v n).toNat = v.toNat / 2 ^ n.toNat + v.toNat * 2 ^ (16 - n.toNat) % 65536 := by
  have hsum : 16 - n.toNat + n.toNat = 16 := by have := n.isLt; omega
  have hor := shiftLeft_mod_or_shiftRight (v := v.toNat) (k := 16 - n.toNat) (m := n.toNat) (by rw [hsum]; exact v.isLt)
  rw [hsum] at hor
  rw [rotr16_eq_rotateRight, BitVec.toNat_rotateRight, Nat.mod_eq_of_lt n.isLt, Nat.or_comm, add_comm]
  exact hor

/-- The left rotation looks `n` places down for a bit and the right one `n` places up. -/
theorem rotr16_rotl16 (v : Word) (n : BitVec 4) : rotr16 (rotl16 v n) n = v := by
  refine BitVec.eq_of_getLsbD_eq fun i hi => ?_
  have hbit : ((i + n.toNat) % 16 + 16 - n.toNat) % 16 = i := by have := n.isLt; omega
  rw [getLsbD_rotr16 _ n hi, getLsbD_rotl16 v n (Nat.mod_lt _ (by decide)), hbit]

theorem rotAmount_toNat (b : Byte) : (rotAmount b).toNat = b.toNat % 16 := by simp [rotAmount]

theorem rotAmount_eq_of_mod_eq {b c : Byte} (h : b.toNat % 16 = c.toNat % 16) : rotAmount b = rotAmount c :=
  BitVec.eq_of_toNat_eq (by rw [rotAmount_toNat, rotAmount_toNat, h])

theorem rotAmount_eq_zero {b : Byte} (h : b.toNat % 16 = 0) : rotAmount b = 0 :=
  BitVec.eq_of_toNat_eq ((rotAmount_toNat b).trans h)

theorem exec_rol (hh ll : Byte) (s : State) :
    exec (.rol hh ll) s = .next (s.retire (rotl16 s.acc (rotAmount hh))) := rfl

theorem exec_ror (hh ll : Byte) (s : State) :
    exec (.ror hh ll) s = .next (s.retire (rotr16 s.acc (rotAmount ll))) := rfl

end Sys2Proof.Machine

open Sys2Proof Sys2Proof.Machine

/-- Settles O6: each operation is the bit vectors' own, whose number is the residue (R57, R58, R59). -/
theorem sixteenBitArithmeticWraps : Obligations.SixteenBitArithmeticWraps := by
  unfold Obligations.SixteenBitArithmeticWraps
  exact fun a b => ⟨add16_toNat a b, sub16_toNat a b, fun _ hr => eq_sub16_toNat_iff hr a b,
    sub16_eq_add16_not16 a b, not16_toNat a, fun _ hi => getLsbD_not16 a hi⟩

/-- Settles O7: the two bytes as parts of the number and as ranges of bits (R60). -/
theorem swapExchangesTheBytes : Obligations.SwapExchangesTheBytes := by
  unfold Obligations.SwapExchangesTheBytes
  exact fun v => ⟨swap16_toNat v, rfl, fun _ hi => getLsbD_swap16 v hi⟩

/-- Settles O9: the left rotation is the library's, and its two shifted parts are disjoint (R62). -/
theorem rotateLeftPermutesBits : Obligations.RotateLeftPermutesBits := by
  unfold Obligations.RotateLeftPermutesBits
  exact fun v n => ⟨fun _ hi => getLsbD_rotl16 v n hi, rotl16_zero v, fun _ => rotl16_toNat v n⟩

/-- Settles O10: the right rotation is the library's, and its two shifted parts are disjoint (R63). -/
theorem rotateRightPermutesBits : Obligations.RotateRightPermutesBits := by
  unfold Obligations.RotateRightPermutesBits
  exact fun v n => ⟨fun _ hi => getLsbD_rotr16 v n hi, rotr16_zero v, fun _ => rotr16_toNat v n⟩

/-- Settles O11: ROL and ROR see their amount byte through `rotAmount` alone, which is its residue (R64). -/
theorem rotateAmountIsTakenModulo16 : Obligations.RotateAmountIsTakenModulo16 := by
  unfold Obligations.RotateAmountIsTakenModulo16
  refine ⟨rotAmount_toNat, fun v b x hzero => ?_, fun v b c x y heq => ?_⟩
  · rw [opRol, opRor, rotAmount_eq_zero hzero]
    exact ⟨rotl16_zero v, rotr16_zero v⟩
  · rw [opRol, opRor, rotAmount_eq_of_mod_eq heq]
    exact ⟨rfl, rfl⟩

/-- Settles O12: bit by bit, each second operation looks up the bit where the first one took it from (R67). -/
theorem swapAndRotationUndoThemselves : Obligations.SwapAndRotationUndoThemselves := by
  unfold Obligations.SwapAndRotationUndoThemselves
  exact ⟨swap16_swap16, rotr16_rotl16, fun r x y s =>
    ⟨_, _, exec_rol r x s, exec_ror y r _, rotr16_rotl16 s.acc (rotAmount r)⟩⟩

end

-- ==== The operation set (rules R70 to R72, R74 to R78, R80 to R82) ====
section
namespace Sys2Proof.Machine

/-! Both readings of the operand pair, as a number and byte by byte -/

theorem natOperand_toNat (hh ll : Byte) : (natOperand hh ll).toNat = hh.toNat * 256 + ll.toNat := by
  rw [natOperand, BitVec.toNat_append, ← Nat.shiftLeft_add_eq_or_of_lt ll.isLt, Nat.shiftLeft_eq]

theorem flpOperand_toNat (hh ll : Byte) : (flpOperand hh ll).toNat = ll.toNat * 256 + hh.toNat :=
  natOperand_toNat ll hh

theorem hiByte_flpOperand (hh ll : Byte) : hiByte (flpOperand hh ll) = ll := BitVec.extractLsb'_append_eq_left

theorem loByte_flpOperand (hh ll : Byte) : loByte (flpOperand hh ll) = hh := BitVec.extractLsb'_append_eq_right

/-! The value of each operation -/

theorem opAdd_toNat (v : Word) (hh ll : Byte) :
    (opAdd v hh ll).toNat = (v.toNat + hh.toNat * 256 + ll.toNat) % 65536 := by
  rw [opAdd, add16_toNat, natOperand_toNat, add_assoc]

theorem opAddf_toNat (v : Word) (hh ll : Byte) :
    (opAddf v hh ll).toNat = (v.toNat + ll.toNat * 256 + hh.toNat) % 65536 :=
  opAdd_toNat v ll hh

/-- The difference is the integers' own residue, so a borrow passes between the bytes (R58, R80). -/
theorem sub16_toNat_eq_emod (a b : Word) : ((sub16 a b).toNat : Int) = ((a.toNat : Int) - b.toNat) % 65536 := by
  have hb := b.isLt
  rw [sub16_toNat]
  omega

theorem opSub_toNat (v : Word) (hh ll : Byte) :
    ((opSub v hh ll).toNat : Int) = ((v.toNat : Int) - hh.toNat * 256 - ll.toNat) % 65536 := by
  rw [opSub, sub16_toNat_eq_emod, natOperand_toNat]
  push_cast
  rw [sub_sub]

theorem opSubf_toNat (v : Word) (hh ll : Byte) :
    ((opSubf v hh ll).toNat : Int) = ((v.toNat : Int) - ll.toNat * 256 - hh.toNat) % 65536 :=
  opSub_toNat v ll hh

theorem hiByte_opAndf (v : Word) (hh ll : Byte) : hiByte (opAndf v hh ll) = hiByte v &&& ll :=
  BitVec.extractLsb'_and.trans (congrArg (hiByte v &&& ·) (hiByte_flpOperand hh ll))

theorem loByte_opAndf (v : Word) (hh ll : Byte) : loByte (opAndf v hh ll) = loByte v &&& hh :=
  BitVec.extractLsb'_and.trans (congrArg (loByte v &&& ·) (loByte_flpOperand hh ll))

theorem hiByte_opOrf (v : Word) (hh ll : Byte) : hiByte (opOrf v hh ll) = hiByte v ||| ll :=
  BitVec.extractLsb'_or.trans (congrArg (hiByte v ||| ·) (hiByte_flpOperand hh ll))

theorem loByte_opOrf (v : Word) (hh ll : Byte) : loByte (opOrf v hh ll) = loByte v ||| hh :=
  BitVec.extractLsb'_or.trans (congrArg (loByte v ||| ·) (loByte_flpOperand hh ll))

theorem getLsbD_opRol (v : Word) (hh ll : Byte) {i : Nat} (hi : i < 16) :
    (opRol v hh ll).getLsbD i = v.getLsbD ((i + 16 - hh.toNat % 16) % 16) := by
  rw [opRol, getLsbD_rotl16 v _ hi, rotAmount_toNat]

theorem getLsbD_opRor (v : Word) (hh ll : Byte) {i : Nat} (hi : i < 16) :
    (opRor v hh ll).getLsbD i = v.getLsbD ((i + ll.toNat % 16) % 16) := by
  rw [opRor, getLsbD_rotr16 v _ hi, rotAmount_toNat]

/-! The operation a name stands for: as an instruction, and as the datapath's selection -/

/-- The pure function of a name (R71 to R81). -/
def opOf : OpName → Word → Byte → Byte → Word
  | .flip => opFlip
  | .add => opAdd
  | .cpl => opCpl
  | .andf => opAndf
  | .rol => opRol
  | .orf => opOrf
  | .ror => opRor
  | .addf => opAddf
  | .fcadd => opFcadd
  | .sub => opSub
  | .subf => opSubf

/-- The instruction of a name retires with the name's function of the old `acc` (R87). -/
theorem exec_ofName (n : OpName) (hh ll : Byte) (s : State) :
    exec (Instr.ofName n hh ll) s = .next (s.retire (opOf n s.acc hh ll)) := by
  cases n <;> rfl

/-- R82: the identity, and still one of the four steps. -/
theorem exec_nop (op hh ll : Byte) (s : State) : exec (.nop op hh ll) s = .next (s.retire s.acc) := rfl

/-- A search through a list, followed by a use of its answer, is a chain of tests in the list's order. -/
theorem elim_find?_cons {α β : Type} (p : α → Bool) (a : α) (l : List α) (z : β) (f : α → β) :
    ((a :: l).find? p).elim z f = if p a then f a else (l.find? p).elim z f := by
  rw [List.find?_cons]
  cases p a <;> rfl

/-- R70's chain of tests is the lookup of R48: both go through the eleven names in the same order. -/
theorem execValue_eq_lookup_elim (opc : OpcMap) (op : Byte) (v : Word) (hh ll : Byte) :
    execValue opc op v hh ll = (opc.lookup op).elim (opNop v hh ll) fun n => opOf n v hh ll := by
  simp only [execValue, OpcMap.lookup, OpName.all, elim_find?_cons, List.find?_nil, Option.elim_none, beq_iff_eq,
    OpcMap.byte, opOf, eq_comm (a := op)]

theorem execValue_byte {opc : OpcMap} (h : opc.Injective) (n : OpName) (v : Word) (hh ll : Byte) :
    execValue opc (opc.byte n) v hh ll = opOf n v hh ll := by
  rw [execValue_eq_lookup_elim, OpcMap.lookup_byte h, Option.elim_some]

theorem execValue_of_unknown {opc : OpcMap} {op : Byte} (h : ∀ n, opc.byte n ≠ op) (v : Word) (hh ll : Byte) :
    execValue opc op v hh ll = v := by
  rw [execValue_eq_lookup_elim, OpcMap.lookup_eq_none.mpr h, Option.elim_none, opNop]

end Sys2Proof.Machine

open Sys2Proof Sys2Proof.Machine

/-- Settles O18: the mask's two bytes, taken apart byte by byte (R74). -/
theorem andfMasksWithTheFlippedOperand : Obligations.AndfMasksWithTheFlippedOperand := by
  unfold Obligations.AndfMasksWithTheFlippedOperand
  exact fun hh ll s => ⟨fun _ hinj => decodeStep_byte hinj .andf hh ll, _, exec_ofName .andf hh ll s, rfl,
    hiByte_opAndf s.acc hh ll, loByte_opAndf s.acc hh ll⟩

/-- Settles O19: the bits of the left rotation at the residue of `hh` (R75). -/
theorem rolRotatesLeftByTheFirstByte : Obligations.RolRotatesLeftByTheFirstByte := by
  unfold Obligations.RolRotatesLeftByTheFirstByte
  exact fun hh ll s => ⟨fun _ hinj => decodeStep_byte hinj .rol hh ll, _, exec_ofName .rol hh ll s,
    fun _ hi => getLsbD_opRol s.acc hh ll hi⟩

/-- Settles O20: the two bytes of the operand, taken apart byte by byte (R76). -/
theorem orfSetsWithTheFlippedOperand : Obligations.OrfSetsWithTheFlippedOperand := by
  unfold Obligations.OrfSetsWithTheFlippedOperand
  exact fun hh ll s => ⟨fun _ hinj => decodeStep_byte hinj .orf hh ll, _, exec_ofName .orf hh ll s, rfl,
    hiByte_opOrf s.acc hh ll, loByte_opOrf s.acc hh ll⟩

/-- Settles O21: the bits of the right rotation at the residue of `ll` (R77). -/
theorem rorRotatesRightByTheSecondByte : Obligations.RorRotatesRightByTheSecondByte := by
  unfold Obligations.RorRotatesRightByTheSecondByte
  exact fun hh ll s => ⟨fun _ hinj => decodeStep_byte hinj .ror hh ll, _, exec_ofName .ror hh ll s,
    fun _ hi => getLsbD_opRor s.acc hh ll hi⟩

/-- Settles O32: the chain of tests is a lookup, which an injective map answers with the byte's own name (R70). -/
theorem execSelectsByOpcodeByte : Obligations.ExecSelectsByOpcodeByte := by
  unfold Obligations.ExecSelectsByOpcodeByte
  intro opc hinj v hh ll
  have hname (n : OpName) := execValue_byte hinj n v hh ll
  exact ⟨hname .flip, hname .add, hname .cpl, hname .andf, hname .rol, hname .orf, hname .ror, hname .addf,
    hname .fcadd, hname .sub, hname .subf, fun _ hunknown => execValue_of_unknown hunknown v hh ll⟩

/-- Settles O15: the byte swap as a number (R71). -/
theorem flipSwapsTheAccumulator : Obligations.FlipSwapsTheAccumulator := by
  unfold Obligations.FlipSwapsTheAccumulator
  exact fun hh ll s => ⟨fun _ hinj => decodeStep_byte hinj .flip hh ll, _, exec_ofName .flip hh ll s,
    swap16_toNat s.acc⟩

/-- Settles O16: one 16-bit addition of the natural reading (R72). -/
theorem addAddsTheNaturalOperand : Obligations.AddAddsTheNaturalOperand := by
  unfold Obligations.AddAddsTheNaturalOperand
  exact fun hh ll s => ⟨fun _ hinj => decodeStep_byte hinj .add hh ll, _, exec_ofName .add hh ll s,
    opAdd_toNat s.acc hh ll⟩

/-- Settles O22: one 16-bit addition of the flipped reading (R78). -/
theorem addfAddsTheFlippedOperand : Obligations.AddfAddsTheFlippedOperand := by
  unfold Obligations.AddfAddsTheFlippedOperand
  exact fun hh ll s => ⟨fun _ hinj => decodeStep_byte hinj .addf hh ll, _, exec_ofName .addf hh ll s,
    opAddf_toNat s.acc hh ll⟩

/-- Settles O24: the residue of the difference with the natural reading (R80). -/
theorem subSubtractsTheNaturalOperand : Obligations.SubSubtractsTheNaturalOperand := by
  unfold Obligations.SubSubtractsTheNaturalOperand
  exact fun hh ll s => ⟨fun _ hinj => decodeStep_byte hinj .sub hh ll, _, exec_ofName .sub hh ll s,
    opSub_toNat s.acc hh ll⟩

/-- Settles O25: the residue of the difference with the flipped reading (R81). -/
theorem subfSubtractsTheFlippedOperand : Obligations.SubfSubtractsTheFlippedOperand := by
  unfold Obligations.SubfSubtractsTheFlippedOperand
  exact fun hh ll s => ⟨fun _ hinj => decodeStep_byte hinj .subf hh ll, _, exec_ofName .subf hh ll s,
    opSubf_toNat s.acc hh ll⟩

/-- Settles O26: the failed lookup reads as `nop`, which retires with the old `acc` (R82). -/
theorem unknownOpcodeIsTheIdentity : Obligations.UnknownOpcodeIsTheIdentity := by
  unfold Obligations.UnknownOpcodeIsTheIdentity
  exact fun op hh ll s => ⟨fun _ hunknown => decodeStep_of_unknown hunknown hh ll, _, exec_nop op hh ll s,
    s.retire_acc s.acc, s.retire_sp s.acc⟩

end

-- ==== The function the machine computes (rule R84) ====
section
namespace Sys2Proof.Machine

@[simp] theorem deriveKey_zero (opc : OpcMap) (seed : Word) (T : Nat → Byte) :
    deriveKey opc seed 0 T = not16 seed := if_pos rfl

theorem deriveKey_of_ne_zero {a : Byte} (h : a ≠ 0) (opc : OpcMap) (seed : Word) (T : Nat → Byte) :
    deriveKey opc seed a T = runningValue opc T a seed Config.steps := if_neg h

@[simp] theorem runningValue_zero (opc : OpcMap) (T : Nat → Byte) (a : Byte) (seed : Word) :
    runningValue opc T a seed 0 = seed := rfl

theorem runningValue_succ (opc : OpcMap) (T : Nat → Byte) (a : Byte) (seed : Word) (i : Nat) :
    runningValue opc T a seed (i + 1) =
      execValue opc (T (opAddr a i)) (runningValue opc T a seed i) (T (hhAddr a i)) (T (llAddr a i)) := rfl

/-- R29's address of a step's opcode byte, with the constants of R5 written as numerals. -/
theorem opAddr_eq (a : Byte) (i : Nat) : opAddr a i = a.toNat * 13 + i * 3 := rfl

theorem hhAddr_eq (a : Byte) (i : Nat) : hhAddr a i = a.toNat * 13 + i * 3 + 1 := rfl

theorem llAddr_eq (a : Byte) (i : Nat) : llAddr a i = a.toNat * 13 + i * 3 + 2 := rfl

end Sys2Proof.Machine

open Sys2Proof Sys2Proof.Machine

/-- Settles O51: the two arms on the algorithm id, and the recursion of the running value at the addresses of R29
(R84). -/
theorem deriveKeyIsFourStepsOrTheComplement : Obligations.DeriveKeyIsFourStepsOrTheComplement := by
  unfold Obligations.DeriveKeyIsFourStepsOrTheComplement
  intro opc s a T
  refine ⟨?zeroId, fun hne => deriveKey_of_ne_zero hne opc s T, runningValue_zero opc T a s, fun i => ?nextStep⟩
  case zeroId =>
    rintro rfl
    exact deriveKey_zero opc s T
  case nextStep => rw [runningValue_succ, opAddr_eq, hhAddr_eq, llAddr_eq]

end

-- ==== Decoding and encoding (rules R44, R48, R49) ====
section
namespace Sys2Proof

theorem OpcMap.known_eq_false_iff {opc : OpcMap} {op : Byte} : opc.known op = false ↔ ∀ n, opc.byte n ≠ op := by
  rw [← Bool.not_eq_true, OpcMap.known_iff, not_exists]

/-- The twelve rows are the eleven names and the catch-all (R48). -/
theorem Instr.eq_ofName_or_nop (i : Instr) :
    (∃ n hh ll, i = Instr.ofName n hh ll) ∨ ∃ op hh ll, i = .nop op hh ll := by
  cases i with
  | nop op hh ll => exact .inr ⟨op, hh, ll, rfl⟩
  | flip hh ll => exact .inl ⟨.flip, hh, ll, rfl⟩
  | add hh ll => exact .inl ⟨.add, hh, ll, rfl⟩
  | cpl hh ll => exact .inl ⟨.cpl, hh, ll, rfl⟩
  | andf hh ll => exact .inl ⟨.andf, hh, ll, rfl⟩
  | rol hh ll => exact .inl ⟨.rol, hh, ll, rfl⟩
  | orf hh ll => exact .inl ⟨.orf, hh, ll, rfl⟩
  | ror hh ll => exact .inl ⟨.ror, hh, ll, rfl⟩
  | addf hh ll => exact .inl ⟨.addf, hh, ll, rfl⟩
  | fcadd hh ll => exact .inl ⟨.fcadd, hh, ll, rfl⟩
  | sub hh ll => exact .inl ⟨.sub, hh, ll, rfl⟩
  | subf hh ll => exact .inl ⟨.subf, hh, ll, rfl⟩

@[simp] theorem encode_ofName (opc : OpcMap) (n : OpName) (hh ll : Byte) :
    encode opc (Instr.ofName n hh ll) = [opc.byte n, hh, ll] := by
  cases n <;> rfl

@[simp] theorem encode_nop (opc : OpcMap) (op hh ll : Byte) : encode opc (.nop op hh ll) = [op, hh, ll] := rfl

@[simp] theorem wellFormed_ofName (opc : OpcMap) (n : OpName) (hh ll : Byte) :
    (Instr.ofName n hh ll).wellFormed opc = true := by
  cases n <;> rfl

theorem wellFormed_nop_iff {opc : OpcMap} {op hh ll : Byte} :
    (Instr.nop op hh ll).wellFormed opc = true ↔ ∀ n, opc.byte n ≠ op := by
  rw [← OpcMap.known_eq_false_iff, Instr.wellFormed, Bool.not_eq_true']

theorem decode_cons (opc : OpcMap) (op hh ll : Byte) (rest : List Byte) :
    decode opc (op :: hh :: ll :: rest) = .ok (decodeStep opc op hh ll, rest) := rfl

/-- A step is read by the name of its opcode byte, or as `nop` where the byte has none (R48). -/
theorem decodeStep_cases (opc : OpcMap) (op hh ll : Byte) :
    (∃ n, opc.byte n = op ∧ decodeStep opc op hh ll = Instr.ofName n hh ll) ∨
    ((∀ n, opc.byte n ≠ op) ∧ decodeStep opc op hh ll = .nop op hh ll) := by
  cases hlookup : opc.lookup op with
  | some n => exact .inl ⟨n, OpcMap.byte_of_lookup hlookup, by simp only [decodeStep, hlookup]⟩
  | none =>
    have hunknown := OpcMap.lookup_eq_none.mp hlookup
    exact .inr ⟨hunknown, decodeStep_of_unknown hunknown hh ll⟩

theorem decodeStep_wellFormed (opc : OpcMap) (op hh ll : Byte) : (decodeStep opc op hh ll).wellFormed opc = true := by
  obtain ⟨n, -, hread⟩ | ⟨hunknown, hread⟩ := decodeStep_cases opc op hh ll
  · rw [hread, wellFormed_ofName]
  · rw [hread, wellFormed_nop_iff]
    exact hunknown

theorem encode_decodeStep (opc : OpcMap) (op hh ll : Byte) : encode opc (decodeStep opc op hh ll) = [op, hh, ll] := by
  obtain ⟨n, rfl, hread⟩ | ⟨-, hread⟩ := decodeStep_cases opc op hh ll
  · rw [hread, encode_ofName]
  · rw [hread, encode_nop]

theorem decode_encode {opc : OpcMap} (hinj : opc.Injective) {i : Instr} (hwf : i.wellFormed opc = true)
    (rest : List Byte) : decode opc (encode opc i ++ rest) = .ok (i, rest) := by
  obtain ⟨n, hh, ll, rfl⟩ | ⟨op, hh, ll, rfl⟩ := i.eq_ofName_or_nop
  · rw [encode_ofName, ← decodeStep_byte hinj]
    exact decode_cons opc _ hh ll rest
  · rw [encode_nop, ← decodeStep_of_unknown (wellFormed_nop_iff.mp hwf)]
    exact decode_cons opc op hh ll rest

/-! The step word and its three bytes (log 13) -/

theorem stepWord_toNat (op hh ll : Byte) :
    (stepWord op hh ll).toNat = op.toNat * 65536 + hh.toNat * 256 + ll.toNat := by
  rw [stepWord, BitVec.toNat_append, BitVec.toNat_append, ← Nat.shiftLeft_add_eq_or_of_lt ll.isLt,
    ← Nat.shiftLeft_add_eq_or_of_lt hh.isLt, Nat.shiftLeft_eq, Nat.shiftLeft_eq]
  omega

theorem tableWord_stepWord (op hh ll : Byte) : tableWord 24 (stepWord op hh ll).toNat = (stepWord op hh ll).toNat :=
  Nat.mod_eq_of_lt (stepWord op hh ll).isLt

theorem tableWordBytes_stepWord (op hh ll : Byte) : tableWordBytes 24 (stepWord op hh ll).toNat = (op, hh, ll) := by
  have hop := op.isLt
  have hhh := hh.isLt
  have hll := ll.isLt
  rw [tableWordBytes, tableWord_stepWord, stepWord_toNat]
  simp only [Prod.mk.injEq, ← BitVec.toNat_inj, BitVec.toNat_ofNat]
  omega

theorem decodeTableWord_stepWord (op hh ll : Byte) :
    decodeTableWord 24 (stepWord op hh ll).toNat = some (decodeStep defaultOpc op hh ll) := by
  have hlt : tableWord 24 (stepWord op hh ll).toNat < 2 ^ 24 := Nat.mod_lt _ (by decide)
  rw [decodeTableWord, if_pos hlt, tableWordBytes_stepWord, decode_cons]

theorem stepWord_fields (op hh ll : Byte) :
    (stepWord op hh ll).extractLsb' 16 8 = op ∧ (stepWord op hh ll).extractLsb' 8 8 = hh ∧
    (stepWord op hh ll).extractLsb' 0 8 = ll := by
  have hop := op.isLt
  have hhh := hh.isLt
  have hll := ll.isLt
  simp only [← BitVec.toNat_inj, BitVec.extractLsb'_toNat, stepWord_toNat, Nat.shiftRight_eq_div_pow]
  omega

end Sys2Proof

open Sys2Proof

/-- Settles O1: the encoding opens with the name's byte, which an injective map reads back as the name, or with a byte
of no name (R48). -/
theorem decodeOfEncodeIsTheInstruction : Obligations.DecodeOfEncodeIsTheInstruction := by
  unfold Obligations.DecodeOfEncodeIsTheInstruction
  exact fun _ hinj _ rest hwf => decode_encode hinj hwf rest

/-- Settles O2: in both readings of a step the encoding puts the opcode byte back (R48). -/
theorem encodeOfDecodedStepIsItsBytes : Obligations.EncodeOfDecodedStepIsItsBytes := by
  unfold Obligations.EncodeOfDecodedStepIsItsBytes
  exact fun opc op hh ll => ⟨decodeStep_wellFormed opc op hh ll, encode_decodeStep opc op hh ll⟩

/-- Settles O4: each word is the step word of its three bytes, whose opcode byte the default map names or leaves
unknown. -/
theorem defaultStepWordsDecode : Obligations.DefaultStepWordsDecode := by
  unfold Obligations.DefaultStepWordsDecode
  have hname (n : OpName) (hh ll : Byte) :
      decodeTableWord 24 (stepWord (defaultOpc.byte n) hh ll).toNat = some (Instr.ofName n hh ll) :=
    (decodeTableWord_stepWord _ hh ll).trans (congrArg some (decodeStep_byte defaultOpc_injective n hh ll))
  have hnop : decodeTableWord 24 (stepWord 0x00 0xAA 0x55).toNat = some (.nop 0x00 0xAA 0x55) :=
    decodeTableWord_stepWord 0x00 0xAA 0x55
  exact ⟨hname .flip 0xAB 0xCD, hname .add 0x12 0x34, hname .cpl 0x01 0x02, hname .ror 0x77 0x1F,
    hname .subf 0x34 0x12, hnop⟩

/-- Settles O5: the word as a number has the bytes as its digits to base 256 (R44, log 13). -/
theorem stepWordHoldsItsBytes : Obligations.StepWordHoldsItsBytes := by
  unfold Obligations.StepWordHoldsItsBytes
  intro op hh ll
  obtain ⟨hop, hhh, hll⟩ := stepWord_fields op hh ll
  exact ⟨hop, hhh, hll, decodeTableWord_stepWord op hh ll⟩

end

-- ==== Laws of the datapath and of the instructions (rules R61, R68, R73, R79, R87) ====
section
namespace Sys2Proof.Machine

/-! The two readings of the operand pair -/

theorem flpOperand_eq_natOperand (hh ll : Byte) : flpOperand hh ll = natOperand ll hh := rfl

theorem flpOperand_eq_swap16 (hh ll : Byte) : flpOperand hh ll = swap16 (natOperand hh ll) := by
  have hhh := hh.isLt
  have hll := ll.isLt
  refine BitVec.eq_of_toNat_eq ?_
  rw [swap16_toNat, flpOperand_toNat, natOperand_toNat]
  omega

theorem natOperand_eq_flpOperand_iff {hh ll : Byte} : natOperand hh ll = flpOperand hh ll ↔ hh = ll := by
  have hhh := hh.isLt
  have hll := ll.isLt
  rw [← BitVec.toNat_inj, ← BitVec.toNat_inj, natOperand_toNat, flpOperand_toNat]
  omega

theorem flpOperand_lt_natOperand_iff {hh ll : Byte} :
    (flpOperand hh ll).toNat < (natOperand hh ll).toNat ↔ ll.toNat < hh.toNat := by
  have hhh := hh.isLt
  have hll := ll.isLt
  rw [natOperand_toNat, flpOperand_toNat]
  omega

/-! Rotations, bit by bit: each law is an equation between places modulo 16 (R68 (a) to (d)) -/

theorem rotl16_rotr16 (v : Word) (n : BitVec 4) : rotl16 (rotr16 v n) n = v := by
  refine BitVec.eq_of_getLsbD_eq fun i hi => ?_
  have hbit : ((i + 16 - n.toNat) % 16 + n.toNat) % 16 = i := by have := n.isLt; omega
  rw [getLsbD_rotl16 _ n hi, getLsbD_rotr16 v n (Nat.mod_lt _ (by decide)), hbit]

theorem rotl16_eq_rotr16_neg (v : Word) (n : BitVec 4) : rotl16 v n = rotr16 v (0 - n) := by
  refine BitVec.eq_of_getLsbD_eq fun i hi => ?_
  have hamount : (0 - n).toNat = (16 - n.toNat) % 16 :=
    (congrArg BitVec.toNat (BitVec.zero_sub n)).trans (BitVec.toNat_neg n)
  have hbit : (i + 16 - n.toNat) % 16 = (i + (0 - n).toNat) % 16 := by have := n.isLt; omega
  rw [getLsbD_rotl16 v n hi, getLsbD_rotr16 v _ hi, hbit]

theorem rotl16_rotl16 (v : Word) (n m : BitVec 4) : rotl16 (rotl16 v n) m = rotl16 v (n + m) := by
  refine BitVec.eq_of_getLsbD_eq fun i hi => ?_
  have hamount : (n + m).toNat = (n.toNat + m.toNat) % 16 := BitVec.toNat_add n m
  have hbit : ((i + 16 - m.toNat) % 16 + 16 - n.toNat) % 16 = (i + 16 - (n + m).toNat) % 16 := by
    have := n.isLt
    have := m.isLt
    omega
  rw [getLsbD_rotl16 _ m hi, getLsbD_rotl16 v n (Nat.mod_lt _ (by decide)), getLsbD_rotl16 v _ hi, hbit]

theorem rotr16_eight (v : Word) : rotr16 v 8 = swap16 v :=
  BitVec.eq_of_getLsbD_eq fun _ hi => (getLsbD_rotr16 v 8 hi).trans (getLsbD_swap16 v hi).symm

theorem rotl16_eight (v : Word) : rotl16 v 8 = swap16 v :=
  (rotl16_eq_rotr16_neg v 8).trans (rotr16_eight v)

/-! Complement, addition and subtraction (R68 (e) to (h)) -/

theorem not16_not16 (v : Word) : not16 (not16 v) = v := BitVec.not_not

theorem add16_not16_one (v : Word) : add16 (not16 v) 1 = sub16 0 v :=
  (BitVec.neg_eq_not_add v).symm.trans (BitVec.zero_sub v).symm

theorem sub16_add16 (v w : Word) : sub16 (add16 v w) w = v := BitVec.add_sub_cancel v w

theorem add16_sub16 (v w : Word) : add16 (sub16 v w) w = v := BitVec.sub_add_cancel v w

theorem sub16_eq_add16_sub16_zero (v w : Word) : sub16 v w = add16 v (sub16 0 w) :=
  (sub16_eq_add16_not16 v w).trans (congrArg (add16 v) (add16_not16_one w))

/-- The all-ones operand and the operand `w` leave the same, `w` itself. -/
theorem and_bijective_iff (w : Word) : Function.Bijective (fun v : Word => v &&& w) ↔ w = 0xFFFF := by
  constructor
  case mp =>
    intro hbij
    have hcollide : 0xFFFF#16 &&& w = w &&& w := by rw [BitVec.and_self]; exact BitVec.allOnes_and
    exact (hbij.injective hcollide).symm
  case mpr =>
    rintro rfl
    have hid : (fun v : Word => v &&& 0xFFFF) = id := funext fun _ => BitVec.and_allOnes
    exact hid ▸ Function.bijective_id

/-- The all-zeros operand and the operand `w` leave the same, `w` itself. -/
theorem or_bijective_iff (w : Word) : Function.Bijective (fun v : Word => v ||| w) ↔ w = 0x0000 := by
  constructor
  case mp =>
    intro hbij
    have hcollide : 0#16 ||| w = w ||| w := by rw [BitVec.or_self, BitVec.zero_or]
    exact (hbij.injective hcollide).symm
  case mpr =>
    rintro rfl
    have hid : (fun v : Word => v ||| 0x0000) = id := funext fun _ => BitVec.or_zero
    exact hid ▸ Function.bijective_id

/-! CPL and FCADD -/

theorem byteLt_eq_true_iff {hh ll : Byte} : byteLt hh ll = true ↔ hh.toNat < ll.toNat := decide_eq_true_iff

theorem byteGe_eq_true_iff {hh ll : Byte} : byteGe hh ll = true ↔ ll.toNat ≤ hh.toNat := decide_eq_true_iff

theorem opCpl_of_lt {hh ll : Byte} (h : hh.toNat < ll.toNat) (v : Word) : opCpl v hh ll = sub16 0 v :=
  (if_pos (byteLt_eq_true_iff.mpr h)).trans (add16_not16_one v)

theorem opCpl_of_ge {hh ll : Byte} (h : ll.toNat ≤ hh.toNat) (v : Word) : opCpl v hh ll = not16 v :=
  if_neg (mt byteLt_eq_true_iff.mp (Nat.not_lt.mpr h))

theorem opCpl_toNat (v : Word) (hh ll : Byte) :
    (opCpl v hh ll).toNat = if hh.toNat < ll.toNat then (65535 - v.toNat + 1) % 65536 else 65535 - v.toNat := by
  split
  case isTrue hlt => rw [opCpl_of_lt hlt, ← add16_not16_one, add16_toNat, not16_toNat]; rfl
  case isFalse hge => rw [opCpl_of_ge (Nat.not_lt.mp hge), not16_toNat]

theorem opCpl_opCpl (v : Word) (hh ll : Byte) : opCpl (opCpl v hh ll) hh ll = v := by
  rcases Nat.lt_or_ge hh.toNat ll.toNat with hlt | hge
  · rw [opCpl_of_lt hlt, opCpl_of_lt hlt]
    exact sub_sub_cancel (0 : Word) v
  · rw [opCpl_of_ge hge, opCpl_of_ge hge, not16_not16]

theorem opFcadd_of_ge {hh ll : Byte} (h : ll.toNat ≤ hh.toNat) (v : Word) :
    opFcadd v hh ll = add16 (swap16 v) (natOperand hh ll) :=
  if_pos (byteGe_eq_true_iff.mpr h)

theorem opFcadd_of_lt {hh ll : Byte} (h : hh.toNat < ll.toNat) (v : Word) :
    opFcadd v hh ll = add16 (swap16 v) (flpOperand hh ll) :=
  if_neg (mt byteGe_eq_true_iff.mp (Nat.not_le.mpr h))

theorem opFcadd_toNat (v : Word) (hh ll : Byte) :
    (opFcadd v hh ll).toNat = ((v.toNat % 256 * 256 + v.toNat / 256) +
      if ll.toNat ≤ hh.toNat then hh.toNat * 256 + ll.toNat else ll.toNat * 256 + hh.toNat) % 65536 := by
  split
  case isTrue hge => rw [opFcadd_of_ge hge, add16_toNat, swap16_toNat, natOperand_toNat]
  case isFalse hlt => rw [opFcadd_of_lt (Nat.not_le.mp hlt), add16_toNat, swap16_toNat, flpOperand_toNat]

/-- The reading whose high byte is the larger one: FCADD adds the larger of the two readings (R79). -/
theorem larger_reading_eq (hh ll : Nat) :
    (if ll ≤ hh then hh * 256 + ll else ll * 256 + hh) = max hh ll * 256 + min hh ll := by
  split
  case isTrue hge => rw [max_eq_left hge, min_eq_right hge]
  case isFalse hlt => rw [max_eq_right (Nat.le_of_not_le hlt), min_eq_left (Nat.le_of_not_le hlt)]

theorem opFcadd_comm (v : Word) (hh ll : Byte) : opFcadd v hh ll = opFcadd v ll hh := by
  rcases Nat.lt_trichotomy hh.toNat ll.toNat with hlt | heq | hgt
  · rw [opFcadd_of_lt hlt, opFcadd_of_ge hlt.le, flpOperand_eq_natOperand]
  · rw [BitVec.eq_of_toNat_eq heq]
  · rw [opFcadd_of_ge hgt.le, opFcadd_of_lt hgt, flpOperand_eq_natOperand]

theorem opFcadd_zero_zero (v : Word) : opFcadd v 0 0 = opFlip v 0 0 :=
  (opFcadd_of_ge le_rfl v).trans (BitVec.add_zero (swap16 v))

/-! Instructions -/

/-- What an instruction leaves in `acc` is a function of what it held (R87, R92). -/
theorem exec_retires_function (i : Instr) : ∃ f : Word → Word, ∀ s, exec i s = .next (s.retire (f s.acc)) := by
  obtain ⟨n, hh, ll, rfl⟩ | ⟨op, hh, ll, rfl⟩ := i.eq_ofName_or_nop
  · exact ⟨fun v => opOf n v hh ll, exec_ofName n hh ll⟩
  · exact ⟨id, exec_nop op hh ll⟩

theorem exec_cases {i : Instr} {s t : State} (h : exec i s = .next t) : ∃ v, t = s.retire v := by
  obtain ⟨v, hv⟩ := exec_retires i s
  exact ⟨v, Host.Outcome.next.inj (h.symm.trans hv)⟩

/-- Executing a decoded step retires with the datapath's selection: R48's lookup and R70's chain of tests agree. -/
theorem exec_decodeStep (opc : OpcMap) (op hh ll : Byte) (s : State) :
    exec (decodeStep opc op hh ll) s = .next (s.retire (execValue opc op s.acc hh ll)) := by
  rw [execValue_eq_lookup_elim, decodeStep]
  cases opc.lookup op with
  | some n => exact exec_ofName n hh ll s
  | none => exact exec_nop op hh ll s

theorem exec_ofName_congr {m n : OpName} {hh ll hh' ll' : Byte} {s : State}
    (h : opOf m s.acc hh ll = opOf n s.acc hh' ll') :
    exec (Instr.ofName m hh ll) s = exec (Instr.ofName n hh' ll') s := by
  rw [exec_ofName, exec_ofName, h]

/-- Two names in a row, each with the operand bytes `hh`, `ll`, of which the second undoes the first. -/
theorem exec_ofName_undo {m n : OpName} {hh ll : Byte} (hundo : ∀ v, opOf n (opOf m v hh ll) hh ll = v) (s : State) :
    ∃ t u, exec (Instr.ofName m hh ll) s = .next t ∧ exec (Instr.ofName n hh ll) t = .next u ∧ u.acc = s.acc :=
  ⟨_, _, exec_ofName m hh ll s, exec_ofName n hh ll _, hundo s.acc⟩

end Sys2Proof.Machine

open Sys2Proof Sys2Proof.Machine

/-- Settles O8: the two readings as numbers to base 256 (R61). -/
theorem naturalAndFlippedReadings : Obligations.NaturalAndFlippedReadings := by
  unfold Obligations.NaturalAndFlippedReadings
  exact fun hh ll => ⟨natOperand_toNat hh ll, flpOperand_toNat hh ll, flpOperand_eq_swap16 hh ll,
    flpOperand_eq_natOperand hh ll, natOperand_eq_flpOperand_iff, flpOperand_lt_natOperand_iff⟩

/-- Settles O13: the rotations' laws place by place, the arithmetic's from the bit vectors' group (R68 (a) to (h)). -/
theorem rotationAndNegationLaws : Obligations.RotationAndNegationLaws := by
  unfold Obligations.RotationAndNegationLaws
  exact ⟨fun v n m => ⟨rotl16_rotr16 v n, rotl16_eq_rotr16_neg v n, rotl16_rotl16 v n m, rotl16_eight v,
      rotr16_eight v⟩,
    fun v w => ⟨not16_not16 v, add16_not16_one v, sub16_add16 v w, add16_sub16 v w, sub16_eq_add16_sub16_zero v w⟩⟩

/-- Settles O14: six primitives have an inverse among the primitives; `and` and `or` make two values collide unless the
operand is the neutral one (R68 (i)). -/
theorem whichPrimitivesAreBijections : Obligations.WhichPrimitivesAreBijections := by
  unfold Obligations.WhichPrimitivesAreBijections
  refine ⟨Function.Involutive.bijective swap16_swap16, Function.Involutive.bijective not16_not16,
    fun n => ?rotl, fun n => ?rotr, fun w => ?add, fun w => ?sub, and_bijective_iff, or_bijective_iff⟩
  case rotl =>
    exact Function.bijective_iff_has_inverse.mpr ⟨fun v => rotr16 v n, (rotr16_rotl16 · n), (rotl16_rotr16 · n)⟩
  case rotr =>
    exact Function.bijective_iff_has_inverse.mpr ⟨fun v => rotl16 v n, (rotl16_rotr16 · n), (rotr16_rotl16 · n)⟩
  case add =>
    exact Function.bijective_iff_has_inverse.mpr ⟨fun v => sub16 v w, (sub16_add16 · w), (add16_sub16 · w)⟩
  case sub =>
    exact Function.bijective_iff_has_inverse.mpr ⟨fun v => add16 v w, (add16_sub16 · w), (sub16_add16 · w)⟩

/-- Settles O17: the two arms of the strict comparison (R73; D5, log 10). -/
theorem cplComplementsOrNegates : Obligations.CplComplementsOrNegates := by
  unfold Obligations.CplComplementsOrNegates
  exact fun hh ll s => ⟨fun _ hinj => decodeStep_byte hinj .cpl hh ll, _, exec_ofName .cpl hh ll s,
    opCpl_toNat s.acc hh ll⟩

/-- Settles O23: the two arms of the comparison, each the larger reading (R79; D5, log 10). -/
theorem fcaddAddsTheLargerReading : Obligations.FcaddAddsTheLargerReading := by
  unfold Obligations.FcaddAddsTheLargerReading
  intro hh ll s
  have hvalue := opFcadd_toNat s.acc hh ll
  refine ⟨fun _ hinj => decodeStep_byte hinj .fcadd hh ll, _, exec_ofName .fcadd hh ll s, hvalue, ?_⟩
  rwa [larger_reading_eq, ← add_assoc] at hvalue

/-- Settles O27: every instruction ends in the one retirement of R87. -/
theorem instructionFrame : Obligations.InstructionFrame := by
  unfold Obligations.InstructionFrame
  intro i s t hexec
  obtain ⟨v, rfl⟩ := exec_cases hexec
  exact ⟨s.retire_sp v, s.retire_st v, s.retire_untouched v⟩

/-- Settles O28: the flipped reading is the natural one of the exchanged bytes, and FCADD takes the larger of both (R78,
R79, R81). -/
theorem exchangedOperandBytes : Obligations.ExchangedOperandBytes := by
  unfold Obligations.ExchangedOperandBytes
  intro hh ll s
  have hfcadd : exec (.fcadd hh ll) s = exec (.fcadd ll hh) s :=
    exec_ofName_congr (m := .fcadd) (n := .fcadd) (opFcadd_comm s.acc hh ll)
  have hflip : exec (.fcadd 0 0) s = exec (.flip 0 0) s :=
    exec_ofName_congr (m := .fcadd) (n := .flip) (opFcadd_zero_zero s.acc)
  exact ⟨rfl, rfl, hfcadd, rfl, rfl, hflip⟩

/-- Settles O29: two involutions, and subtraction after addition of the same operand (R68). -/
theorem instructionsThatUndoEachOther : Obligations.InstructionsThatUndoEachOther := by
  unfold Obligations.InstructionsThatUndoEachOther
  exact fun hh ll s => ⟨exec_ofName_undo (m := .flip) (n := .flip) swap16_swap16 s,
    exec_ofName_undo (m := .cpl) (n := .cpl) (fun v => opCpl_opCpl v hh ll) s,
    exec_ofName_undo (m := .add) (n := .sub) (fun v => sub16_add16 v _) s,
    exec_ofName_undo (m := .addf) (n := .subf) (fun v => sub16_add16 v _) s⟩

/-- Settles O30: FLIP and NOP compute without their operand bytes, ROL and ROR see one byte's residue (R47, R64). -/
theorem ignoredOperandBytes : Obligations.IgnoredOperandBytes := by
  unfold Obligations.IgnoredOperandBytes
  refine fun hh ll hh' ll' op op' s => ⟨rfl, rfl, fun hhigh => ?_, fun hlow => ?_⟩
  · rw [exec_rol, exec_rol, rotAmount_eq_of_mod_eq hhigh]
  · rw [exec_ror, exec_ror, rotAmount_eq_of_mod_eq hlow]

/-- Settles O31: the decoder's lookup and the datapath's chain of tests pick the same operation (R48, R56, R70). -/
theorem datapathAgreesWithTheDecodedInstruction : Obligations.DatapathAgreesWithTheDecodedInstruction := by
  unfold Obligations.DatapathAgreesWithTheDecodedInstruction
  exact fun opc op hh ll s => ⟨_, exec_decodeStep opc op hh ll s, s.retire_acc _⟩

end

-- ==== The transitions of the interpreter (rules R85 to R90, R110) ====
section
namespace Sys2Proof.Machine

/-! The step under each guard -/

theorem stepWith_reset {opc : OpcMap} {s : State} (hr : s.rst = true) : stepWith opc s = .next (takeReset s) := by
  simp only [stepWith, enabled_reset hr]

theorem stepWith_bypass {opc : OpcMap} {s : State} (hr : s.rst = false) (hs : s.st = .run) (ha : s.algoR = 0) :
    stepWith opc s = .next (takeBypass s) := by
  simp only [stepWith, enabled_bypass hr hs ha]

theorem stepWith_start {opc : OpcMap} {s : State} (hr : s.rst = false) (hs : s.st ≠ .run) (hb : s.start = true) :
    stepWith opc s = .next (takeStart s) := by
  simp only [stepWith, enabled_start hr hs hb]

theorem stepWith_quiet {opc : OpcMap} {s : State} (hr : s.rst = false) (hs : s.st ≠ .run) (hb : s.start = false) :
    stepWith opc s = .next s := by
  simp only [stepWith, enabled_quiet hr hs hb]

theorem stepWith_of_fetchStep {opc : OpcMap} {s : State} {i : Instr} (hr : s.rst = false) (hs : s.st = .run)
    (ha : s.algoR ≠ 0) (hfetch : fetchStep opc s = .ok i) : stepWith opc s = exec i s := by
  simp only [stepWith, enabled_execStep hr hs ha, hfetch]

/-- The value the datapath computes from `acc` and the three bytes of the step `s` is at (R87). -/
def stepValue (opc : OpcMap) (s : State) : Word :=
  execValue opc (s.mem.byteAt (fetchAddr s)) s.acc (s.mem.byteAt (fetchAddr s + 1)) (s.mem.byteAt (fetchAddr s + 2))

/-- EXEC (R87): with `sp` the index of a step the fetch answers, and the step retires with the datapath's value. -/
theorem stepWith_exec {opc : OpcMap} {s : State} (hr : s.rst = false) (hs : s.st = .run) (ha : s.algoR ≠ 0)
    (hsp : s.sp.toNat < Config.steps) : stepWith opc s = .next (s.retire (stepValue opc s)) :=
  (stepWith_of_fetchStep hr hs ha (fetchStep_ok opc hsp)).trans (exec_decodeStep opc _ _ _ s)

theorem fetchStep_of_reads {opc : OpcMap} {s : State} {op hh ll : Byte} (hop : tblRead s.mem (fetchAddr s) = .ok op)
    (hhh : tblRead s.mem (fetchAddr s + 1) = .ok hh) (hll : tblRead s.mem (fetchAddr s + 2) = .ok ll) :
    fetchStep opc s = .ok (decodeStep opc op hh ll) := by
  simp only [fetchStep, hop, hhh, hll]

theorem takeBypass_untouched (s : State) : Untouched s (takeBypass s) :=
  ⟨rfl, fun _ => rfl, rfl, rfl, rfl, rfl, rfl⟩

theorem sp_succ_toNat {p : StepPtr} (h : p.toNat < Config.steps) : (p + 1).toNat = p.toNat + 1 := by
  have hnowrap : p.toNat + 1 < 8 := Nat.lt_of_lt_of_le (Nat.succ_lt_succ h) (by decide)
  rw [BitVec.toNat_add]
  exact Nat.mod_eq_of_lt hnowrap

/-! A run looks at no input but `rst` -/

theorem exec_driveInputs {i : Instr} {s t : State} (h : exec i s = .next t) (r b : Bool) (w : Word) (a : Byte) :
    exec i (driveInputs r b w a s) = .next (driveInputs r b w a t) := by
  obtain ⟨f, hf⟩ := exec_retires_function i
  obtain rfl : s.retire (f s.acc) = t := Host.Outcome.next.inj ((hf s).symm.trans h)
  exact hf (driveInputs r b w a s)

theorem fetchStep_driveInputs (opc : OpcMap) (s : State) (r b : Bool) (w : Word) (a : Byte) :
    fetchStep opc (driveInputs r b w a s) = fetchStep opc s := rfl

theorem stepWith_driveInputs {opc : OpcMap} {s t : State} (hr : s.rst = false) (hs : s.st = .run)
    (h : stepWith opc s = .next t) (b : Bool) (w : Word) (a : Byte) :
    stepWith opc (driveInputs false b w a s) = .next (driveInputs false b w a t) := by
  obtain ⟨hrst, -⟩ | ⟨-, -, hzero, rfl⟩ | ⟨-, -, hne, i, hfetch, hexec⟩ | ⟨-, hidle, -, -⟩ | ⟨-, hidle, -, -⟩ :=
    stepWith_cases h
  case inl => simp [hr] at hrst
  case inr.inl => exact stepWith_bypass (s := driveInputs false b w a s) rfl hs hzero
  case inr.inr.inl =>
    rw [stepWith_of_fetchStep (s := driveInputs false b w a s) rfl hs hne
      ((fetchStep_driveInputs opc s false b w a).trans hfetch)]
    exact exec_driveInputs hexec false b w a
  case inr.inr.inr.inl => exact absurd hs hidle
  case inr.inr.inr.inr => exact absurd hs hidle

/-! Ports and requested addresses -/

theorem busy_eq_true_iff {s : State} : busy s = true ↔ s.st = .run := decide_eq_true_iff

theorem done_eq_true_iff {s : State} : done s = true ↔ s.st = .done := decide_eq_true_iff

theorem done_eq_false_iff {s : State} : done s = false ↔ s.st ≠ .done := decide_eq_false_iff_not

theorem keyPort_of_done {s : State} (h : s.st = .done) : keyPort s = s.acc := if_pos (done_eq_true_iff.mpr h)

theorem sampleKey_of_done {s : State} (h : s.st = .done) : sampleKey s = s := if_pos (done_eq_true_iff.mpr h)

theorem enabled_eq_execStep {s : State} (h : enabled s = .execStep) : s.rst = false ∧ s.st = .run ∧ s.algoR ≠ 0 := by
  cases hr : s.rst with
  | true => simp [enabled_reset hr] at h
  | false =>
    by_cases hs : s.st = .run
    · refine ⟨rfl, hs, fun ha => ?_⟩
      simp [enabled_bypass hr hs ha] at h
    · cases hb : s.start with
      | true => simp [enabled_start hr hs hb] at h
      | false => simp [enabled_quiet hr hs hb] at h

theorem requestedAddrs_of_ne_execStep {s : State} (h : enabled s ≠ .execStep) : requestedAddrs s = [] := if_neg h

theorem enabled_of_requestedAddrs_ne_nil {s : State} (h : requestedAddrs s ≠ []) : enabled s = .execStep :=
  Decidable.not_imp_comm.mp requestedAddrs_of_ne_execStep h

/-- An address is requested in EXEC alone, as one of the three bytes of the step (R29). -/
theorem mem_requestedAddrs {s : State} {a : Nat} (h : a ∈ requestedAddrs s) :
    enabled s = .execStep ∧ ∃ k, k < 3 ∧ a = s.algoR.toNat * 13 + s.sp.toNat * 3 + k := by
  have henabled := enabled_of_requestedAddrs_ne_nil (List.ne_nil_of_mem h)
  rw [requestedAddrs, if_pos henabled] at h
  simp only [List.mem_cons, List.not_mem_nil, or_false] at h
  obtain rfl | rfl | rfl := h
  · exact ⟨henabled, 0, by decide, rfl⟩
  · exact ⟨henabled, 1, by decide, rfl⟩
  · exact ⟨henabled, 2, by decide, rfl⟩

/-- The bytes of the steps of blocks 1 to 255 (R32, R33). -/
theorem step_address_bounds {b i k : Nat} (hb : b ≠ 0) (hb' : b < 256) (hi : i < 4) (hk : k < 3) :
    13 ≤ b * 13 + i * 3 + k ∧ b * 13 + i * 3 + k ≤ 3326 ∧ (b * 13 + i * 3 + k) % 13 ≠ 12 := by
  have hoffset : (b * 13 + i * 3 + k) % 13 = i * 3 + k := by omega
  omega

theorem byte_toNat_ne_zero {b : Byte} (h : b ≠ 0) : b.toNat ≠ 0 := fun hzero => h (BitVec.eq_of_toNat_eq hzero)

end Sys2Proof.Machine

open Sys2Proof Sys2Proof.Machine

/-- Settles O33: EXEC is enabled and the fetch answers the reading of the three bytes (R87). -/
theorem stepRunsTheFetchedInstruction : Obligations.StepRunsTheFetchedInstruction := by
  unfold Obligations.StepRunsTheFetchedInstruction
  intro opc s op hh ll hr hs ha hop hhh hll
  exact ⟨stepWith_of_fetchStep hr hs ha (fetchStep_of_reads hop hhh hll),
    stepWith_of_fetchStep hr hs ha (fetchStep_of_reads hop hhh hll)⟩

/-- Settles O34: the retirement of the datapath's value, with no wrap of `sp` from a step's index (R87). -/
theorem execTransitionCompletesOneStep : Obligations.ExecTransitionCompletesOneStep := by
  unfold Obligations.ExecTransitionCompletesOneStep
  intro opc s hr hs ha hsp
  exact ⟨_, stepWith_exec hr hs ha hsp, rfl, sp_succ_toNat hsp, s.retire_st _, s.retire_untouched _⟩

/-- Settles O35: BYPASS is enabled, and EXEC alone requests an address (R86). -/
theorem bypassComplementsTheSeed : Obligations.BypassComplementsTheSeed := by
  unfold Obligations.BypassComplementsTheSeed
  intro opc s hr hs ha
  have hnoaddr : requestedAddrs s = [] :=
    requestedAddrs_of_ne_execStep fun henabled => (enabled_eq_execStep henabled).2.2 ha
  exact ⟨hnoaddr, _, stepWith_bypass hr hs ha, not16_toNat s.acc, takeBypass_st s, takeBypass_sp s,
    takeBypass_untouched s⟩

/-- Settles O36: START is enabled and writes its four registers (R85). -/
theorem startSamplesTheInputs : Obligations.StartSamplesTheInputs := by
  unfold Obligations.StartSamplesTheInputs
  intro opc s hr hb hs
  exact ⟨_, stepWith_start hr hs hb, takeStart_acc s, takeStart_algoR s, takeStart_sp s, takeStart_st s, rfl, rfl,
    ⟨rfl, rfl, rfl, rfl, rfl, rfl⟩, takeStart_draws s⟩

/-- Settles O37: no arm of the step relation is enabled (R88 to R90). -/
theorem idleAndDoneAreQuiescent : Obligations.IdleAndDoneAreQuiescent := by
  unfold Obligations.IdleAndDoneAreQuiescent
  exact fun _ _ hr hb hs => stepWith_quiet hr hs hb

/-- Settles O38: RESET comes first in the order of R90. -/
theorem resetWinsInEveryState : Obligations.ResetWinsInEveryState := by
  unfold Obligations.ResetWinsInEveryState
  exact fun _ s hr => ⟨takeReset s, stepWith_reset hr, ⟨rfl, rfl, rfl, rfl, rfl, rfl⟩, rfl, rfl⟩

/-- Settles O39: in RUN neither the enabled arm nor what it computes reads `start`, `seed_in`, `algo_in` (R21, R117). -/
theorem inputsDuringARunHaveNoEffect : Obligations.InputsDuringARunHaveNoEffect := by
  unfold Obligations.InputsDuringARunHaveNoEffect
  exact fun _ _ _ b w a hr hs hstep => stepWith_driveInputs hr hs hstep b w a

/-- Settles O40: `busy` and `done` name two different values of `st` (R20, R88). -/
theorem outputsFollowTheState : Obligations.OutputsFollowTheState := by
  unfold Obligations.OutputsFollowTheState
  refine fun s => ⟨busy_eq_true_iff, done_eq_true_iff, fun ⟨hbusy, hdone⟩ => ?_, fun hdone => ?_⟩
  · exact absurd ((busy_eq_true_iff.mp hbusy).symm.trans (done_eq_true_iff.mp hdone)) (by decide)
  · have hst := done_eq_true_iff.mp hdone
    exact ⟨keyPort_of_done hst, congrArg Host.Outcome.next (sampleKey_of_done hst)⟩

/-- Settles O41: in EXEC the id is 1 to 255, by the invariant the step is 0 to 3, and the three bytes follow (R32, R33). -/
theorem requestedAddressesStayInBounds : Obligations.RequestedAddressesStayInBounds := by
  unfold Obligations.RequestedAddressesStayInBounds
  refine fun s hinv => ⟨fun a hmem => ?_, fun hsome => enabled_eq_execStep (enabled_of_requestedAddrs_ne_nil hsome)⟩
  obtain ⟨henabled, k, hk, rfl⟩ := mem_requestedAddrs hmem
  obtain ⟨-, hrun, hne⟩ := enabled_eq_execStep henabled
  obtain ⟨hlow, hhigh, hpad⟩ :=
    step_address_bounds (byte_toNat_ne_zero hne) s.algoR.isLt (hinv.stepSp hrun hne) hk
  exact ⟨hlow, hhigh, hpad, (BitVec.toNat_ofNat _ 12).trans (Nat.mod_eq_of_lt (Nat.lt_of_le_of_lt hhigh (by decide)))⟩

end

-- ==== The table space (rules R28, R31, R41, R43, R115) ====
section
namespace Sys2Proof.Machine

/-! Canonical form and reads -/

/-- A canonical table whose reads agree with those of an empty one lists nothing. -/
theorem Memory.eq_nil_of_byteAt {lo : Nat} {m : Memory} (h : Memory.wfFrom lo m = true)
    (hreads : ∀ a, a < Config.tableBytes → m.byteAt a = 0) : m = [] := by
  cases m with
  | nil => rfl
  | cons c rest =>
    obtain ⟨a, x⟩ := c
    obtain ⟨-, hlt, hx, -⟩ := Memory.wfFrom_cons.mp h
    exact absurd ((Memory.byteAt_cons_self a x rest).symm.trans (hreads a hlt)) hx

/-- Below the first address of a canonical table another table that reads alike lists nothing either. -/
theorem Memory.head_le_of_byteAt {lo a b : Nat} {x y : Byte} {m m' : Memory}
    (h : Memory.wfFrom lo ((a, x) :: m) = true) (h' : Memory.wfFrom lo ((b, y) :: m') = true)
    (hreads : ∀ c, c < Config.tableBytes → Memory.byteAt ((a, x) :: m) c = Memory.byteAt ((b, y) :: m') c) :
    b ≤ a := by
  obtain ⟨-, ha, hx, -⟩ := Memory.wfFrom_cons.mp h
  obtain ⟨-, hb, hy, hrest⟩ := Memory.wfFrom_cons.mp h'
  by_contra hab
  have hzero : Memory.byteAt ((b, y) :: m') a = 0 :=
    Memory.byteAt_of_lt (Memory.wfFrom_cons.mpr ⟨le_rfl, hb, hy, hrest⟩) (Nat.lt_of_not_le hab)
  exact hx ((Memory.byteAt_cons_self a x m).symm.trans ((hreads a ha).trans hzero))

/-- The canonical form holds nothing but what the reads show: first entries agree, then the rest. -/
theorem Memory.eq_of_byteAt {lo : Nat} {m m' : Memory} (h : Memory.wfFrom lo m = true)
    (h' : Memory.wfFrom lo m' = true) (hreads : ∀ a, a < Config.tableBytes → m.byteAt a = m'.byteAt a) : m = m' := by
  induction m generalizing lo m' with
  | nil => exact (Memory.eq_nil_of_byteAt h' fun a ha => (hreads a ha).symm).symm
  | cons c rest ih =>
    cases m' with
    | nil => exact Memory.eq_nil_of_byteAt h hreads
    | cons c' rest' =>
      obtain ⟨a, x⟩ := c
      obtain ⟨b, y⟩ := c'
      obtain rfl : a = b := Nat.le_antisymm
        (Memory.head_le_of_byteAt h' h fun c hc => (hreads c hc).symm) (Memory.head_le_of_byteAt h h' hreads)
      obtain ⟨-, ha, -, hrest⟩ := Memory.wfFrom_cons.mp h
      obtain ⟨-, -, -, hrest'⟩ := Memory.wfFrom_cons.mp h'
      have hxy := hreads a ha
      rw [Memory.byteAt_cons_self, Memory.byteAt_cons_self] at hxy
      rw [hxy, ih hrest hrest' fun c hc => ?_]
      by_cases hca : c = a
      · rw [hca, Memory.byteAt_of_lt hrest (Nat.lt_succ_self a), Memory.byteAt_of_lt hrest' (Nat.lt_succ_self a)]
      · rw [← Memory.byteAt_cons_other x rest hca, hreads c hc, Memory.byteAt_cons_other y rest' hca]

theorem byteAt_eq_of_tblRead {m m' : Memory} {a : Nat} (ha : a < Config.tableBytes)
    (h : tblRead m a = tblRead m' a) : m.byteAt a = m'.byteAt a := by
  rw [tblRead_of_lt ha, tblRead_of_lt ha] at h
  exact Except.ok.inj h

theorem tblRead_eq_of_byteAt {m m' : Memory} {a : Nat} (h : m.byteAt a = m'.byteAt a) : tblRead m a = tblRead m' a := by
  rw [tblRead, tblRead, h]

/-! The host's two table moves -/

theorem connectTable_of_run {s : State} (hs : s.st = .run) (bytes : List Byte) :
    connectTable bytes s = .refused .tableChangeInRun := if_pos hs

theorem connectTable_of_length_ne {bytes : List Byte} {s : State} (hs : s.st ≠ .run)
    (hl : bytes.length ≠ Config.tableBytes) : connectTable bytes s = .refused (.tableLength bytes.length) := by
  simp only [connectTable, Memory.ofBytes, if_neg hs, if_neg hl]

theorem connectTable_of_length {bytes : List Byte} {s : State} (hs : s.st ≠ .run)
    (hl : bytes.length = Config.tableBytes) :
    connectTable bytes s = .next { s with mem := Memory.ofBytesFrom 0 bytes } := by
  simp only [connectTable, Memory.ofBytes, if_neg hs, if_pos hl]

theorem programByte_of_run {s : State} (hs : s.st = .run) (addr : Nat) (x : Byte) :
    programByte addr x s = .refused .tableChangeInRun := if_pos hs

theorem programByte_of_ge {addr : Nat} {s : State} (hs : s.st ≠ .run) (ha : Config.tableBytes ≤ addr) (x : Byte) :
    programByte addr x s = .refused (.noSuchTableByte addr) := by
  rw [programByte, if_neg hs, if_neg (Nat.not_lt.mpr ha)]

theorem programByte_of_lt {addr : Nat} {s : State} (hs : s.st ≠ .run) (ha : addr < Config.tableBytes) (x : Byte) :
    programByte addr x s = .next { s with mem := s.mem.write addr x } := by
  rw [programByte, if_neg hs, if_pos ha]

theorem tblRead_ofBytesFrom {bytes : List Byte} (hl : bytes.length = Config.tableBytes) {a : Nat}
    (ha : a < bytes.length) : tblRead (Memory.ofBytesFrom 0 bytes) a = .ok bytes[a] := by
  have hbyte := Memory.byteAt_ofBytesFrom bytes 0 a
  rw [Nat.zero_add, List.getD_eq_getElem bytes 0 ha] at hbyte
  rw [tblRead_of_lt (hl ▸ ha), hbyte]

end Sys2Proof.Machine

open Sys2Proof Sys2Proof.Machine

/-- Settles O43: by induction on the canonical tables, whose first entries the reads determine (log 5). -/
theorem equalReadsAreEqualTables : Obligations.EqualReadsAreEqualTables := by
  unfold Obligations.EqualReadsAreEqualTables
  exact fun _ _ hwf hwf' hreads => Memory.eq_of_byteAt hwf hwf' fun a ha => byteAt_eq_of_tblRead ha (hreads a)

/-- Settles O44: the three answers of the move, and the read of a table built from its bytes (R43, R115). -/
theorem connectingATable : Obligations.ConnectingATable := by
  unfold Obligations.ConnectingATable
  exact fun bytes s => ⟨fun hs => connectTable_of_run hs bytes, fun hs hl => connectTable_of_length_ne hs hl,
    fun hs hl => ⟨_, connectTable_of_length hs hl, fun _ ha => tblRead_ofBytesFrom hl ha⟩⟩

/-- Settles O45: the three answers of the move, and reads after a write to the same and to another address (R28, R115). -/
theorem programmingOneByte : Obligations.ProgrammingOneByte := by
  unfold Obligations.ProgrammingOneByte
  refine fun addr x s => ⟨fun hs => programByte_of_run hs addr x, fun hs ha => programByte_of_ge hs ha x,
    fun hs ha hwf => ⟨_, programByte_of_lt hs ha x, ?same, fun a hne => ?other⟩⟩
  case same => rw [tblRead_of_lt ha, Memory.byteAt_write_self hwf]
  case other => exact tblRead_eq_of_byteAt (Memory.byteAt_write_other s.mem x hne)

end

-- ==== The invariant and the running value (rules R14, R26, R90) ====
section
namespace Sys2Proof.Machine

/-! The invariant under each transition and each host move -/

/-- The invariant speaks of `st`, `sp`, `algo_r` and the table's form alone. -/
theorem Inv.of_same_registers {s t : State} (h : Inv s) (hst : t.st = s.st) (hsp : t.sp = s.sp)
    (halgo : t.algoR = s.algoR) (hmem : t.mem.wf = true) : Inv t where
  memWf := hmem
  bypassSp := by rw [hst, hsp, halgo]; exact h.bypassSp
  stepSp := by rw [hst, hsp, halgo]; exact h.stepSp
  doneSp := by rw [hst, hsp, halgo]; exact h.doneSp

/-- Outside a run the invariant asks nothing but the table's form and R26 (d). -/
theorem Inv.of_not_run {s : State} (hmem : s.mem.wf = true) (hs : s.st ≠ .run)
    (hdone : s.st = .done → (s.algoR = 0 ∧ s.sp = 0) ∨ (s.algoR ≠ 0 ∧ s.sp = 4)) : Inv s :=
  ⟨hmem, fun hrun => absurd hrun hs, fun hrun => absurd hrun hs, hdone⟩

theorem inv_reset : Inv State.reset := Inv.of_not_run reset_mem_wf (by decide) (by decide)

theorem inv_takeReset {s : State} (h : Inv s) : Inv (takeReset s) :=
  Inv.of_not_run h.memWf (by simp) (by simp)

theorem inv_takeStart {s : State} (h : Inv s) : Inv (takeStart s) where
  memWf := h.memWf
  bypassSp _ _ := takeStart_sp s
  stepSp _ _ := by rw [takeStart_sp]; decide
  doneSp hdone := by simp at hdone

theorem inv_takeBypass {s : State} (h : Inv s) (hs : s.st = .run) (ha : s.algoR = 0) : Inv (takeBypass s) :=
  Inv.of_not_run h.memWf (by simp) fun _ => .inl ⟨ha, h.bypassSp hs ha⟩

/-- Where a step index stands before a retirement decides where the run stands after it: at the last step `sp` becomes
4, before it the next step's index. -/
theorem sp_retire {p : StepPtr} (h : p.toNat < Config.steps) :
    (p = 3 ∧ p + 1 = 4) ∨ (p ≠ 3 ∧ (p + 1).toNat < Config.steps) := by
  by_cases hlast : p = 3
  · exact .inl ⟨hlast, by rw [hlast]; rfl⟩
  · have hne : p.toNat ≠ 3 := fun heq => hlast (BitVec.eq_of_toNat_eq heq)
    have hsucc := sp_succ_toNat h
    simp only [Config.steps] at h ⊢
    exact .inr ⟨hlast, by omega⟩

theorem State.retire_st_of_last {s : State} (h : s.sp = 3) (v : Word) : (s.retire v).st = .done := if_pos h

theorem State.retire_st_of_not_last {s : State} (h : s.sp ≠ 3) (v : Word) : (s.retire v).st = .run := if_neg h

theorem inv_retire {s : State} (h : Inv s) (hs : s.st = .run) (ha : s.algoR ≠ 0) (v : Word) : Inv (s.retire v) := by
  obtain ⟨hlast, hfour⟩ | ⟨hbefore, hnext⟩ := sp_retire (h.stepSp hs ha)
  · have hst := State.retire_st_of_last hlast v
    exact Inv.of_not_run h.memWf (by rw [hst]; decide) fun _ => .inr ⟨ha, hfour⟩
  · have hst := State.retire_st_of_not_last hbefore v
    exact ⟨h.memWf, fun _ hzero => absurd hzero ha, fun _ _ => hnext, by rw [hst]; exact nofun⟩

theorem inv_stepWith {opc : OpcMap} {s t : State} (hinv : Inv s) (h : stepWith opc s = .next t) : Inv t := by
  obtain ⟨-, rfl⟩ | ⟨-, hs, ha, rfl⟩ | ⟨-, hs, ha, i, -, hexec⟩ | ⟨-, -, -, rfl⟩ | ⟨-, -, -, rfl⟩ := stepWith_cases h
  case inl => exact inv_takeReset hinv
  case inr.inl => exact inv_takeBypass hinv hs ha
  case inr.inr.inl =>
    obtain ⟨v, rfl⟩ := exec_cases hexec
    exact inv_retire hinv hs ha v
  case inr.inr.inr.inl => exact inv_takeStart hinv
  case inr.inr.inr.inr => exact hinv

theorem inv_hostMove {m : HostMove} {s t : State} (hinv : Inv s) (h : hostMove m s = .next t) : Inv t := by
  cases m with
  | drive r b w a =>
    obtain rfl : driveInputs r b w a s = t := Host.Outcome.next.inj h
    exact hinv.of_same_registers rfl rfl rfl hinv.memWf
  | connectTable bytes =>
    obtain ⟨-, hl, rfl⟩ := connectTable_cases h
    have hfits : 0 + bytes.length ≤ Config.tableBytes := by omega
    exact hinv.of_same_registers rfl rfl rfl (Memory.wfFrom_ofBytesFrom bytes 0 hfits)
  | programByte addr x =>
    obtain ⟨-, ha, rfl⟩ := programByte_cases h
    exact hinv.of_same_registers rfl rfl rfl (Memory.wf_write x hinv.memWf ha)
  | readKey =>
    obtain rfl : sampleKey s = t := Host.Outcome.next.inj h
    exact hinv.of_same_registers (sampleKey_st s) (sampleKey_sp s) (sampleKey_algoR s)
      ((sampleKey_mem s).symm ▸ hinv.memWf)
  | readTblAddr =>
    obtain rfl : sampleTblAddr s = t := Host.Outcome.next.inj h
    exact hinv.of_same_registers rfl rfl rfl hinv.memWf

/-- Outside EXEC every step answers; in EXEC it answers while `sp` is the index of a step. -/
theorem stepWith_answers (opc : OpcMap) {s : State}
    (h : s.st = .run → s.algoR ≠ 0 → s.sp.toNat < Config.steps) : ∃ t, stepWith opc s = .next t := by
  cases hr : s.rst with
  | true => exact ⟨_, stepWith_reset hr⟩
  | false =>
    by_cases hs : s.st = .run
    · by_cases ha : s.algoR = 0
      · exact ⟨_, stepWith_bypass hr hs ha⟩
      · exact ⟨_, stepWith_exec hr hs ha (h hs ha)⟩
    · cases hb : s.start with
      | true => exact ⟨_, stepWith_start hr hs hb⟩
      | false => exact ⟨_, stepWith_quiet hr hs hb⟩

/-! The running value -/

/-- From `v_i` in `acc` the datapath computes `v_(i+1)` (R84, R87). -/
theorem stepValue_eq_runningValue {opc : OpcMap} {seed : Word} {s : State}
    (h : s.acc = runningValue opc s.mem.byteAt s.algoR seed s.sp.toNat) :
    stepValue opc s = runningValue opc s.mem.byteAt s.algoR seed (s.sp.toNat + 1) := by
  rw [runningValue_succ, ← h]
  rfl

theorem runInv_takeStart (opc : OpcMap) (s : State) : RunInv opc s.seedIn (takeStart s) where
  started := by simp
  bypassing _ _ := ⟨takeStart_sp s, takeStart_acc s⟩
  stepping _ _ := ⟨by rw [takeStart_sp]; decide, rfl⟩
  finished hdone := by simp at hdone

theorem runInv_takeBypass {opc : OpcMap} {seed : Word} {s : State} (h : RunInv opc seed s) (hs : s.st = .run)
    (ha : s.algoR = 0) : RunInv opc seed (takeBypass s) where
  started := by simp
  bypassing hrun := by simp at hrun
  stepping hrun := by simp at hrun
  finished _ := by
    obtain ⟨hsp, hacc⟩ := h.bypassing hs ha
    exact ⟨.inl ⟨ha, hsp⟩, by rw [takeBypass_acc, takeBypass_algoR, hacc, ha, deriveKey_zero]⟩

theorem runInv_retire {opc : OpcMap} {seed : Word} {s : State} (h : RunInv opc seed s) (hs : s.st = .run)
    (ha : s.algoR ≠ 0) : RunInv opc seed (s.retire (stepValue opc s)) := by
  obtain ⟨hsp, hacc⟩ := h.stepping hs ha
  have hvalue : stepValue opc s = runningValue opc s.mem.byteAt s.algoR seed (s.sp + 1).toNat :=
    (stepValue_eq_runningValue hacc).trans (congrArg _ (sp_succ_toNat hsp).symm)
  obtain ⟨hlast, hfour⟩ | ⟨hbefore, hnext⟩ := sp_retire hsp
  · have hst := State.retire_st_of_last hlast (stepValue opc s)
    rw [hfour] at hvalue
    exact ⟨by rw [hst]; decide, by rw [hst]; exact nofun, by rw [hst]; exact nofun,
      fun _ => ⟨.inr ⟨ha, hfour⟩, hvalue.trans (deriveKey_of_ne_zero ha opc seed _).symm⟩⟩
  · have hst := State.retire_st_of_not_last hbefore (stepValue opc s)
    exact ⟨by rw [hst]; decide, fun _ hzero => absurd hzero ha, fun _ _ => ⟨hnext, hvalue⟩,
      by rw [hst]; exact nofun⟩

theorem runInv_stepWith {opc : OpcMap} {seed : Word} {s t : State} (hinv : RunInv opc seed s) (hr : s.rst = false)
    (hnostart : s.st = .run ∨ s.start = false) (h : stepWith opc s = .next t) : RunInv opc seed t := by
  by_cases hs : s.st = .run
  · by_cases ha : s.algoR = 0
    · obtain rfl := Host.Outcome.next.inj ((stepWith_bypass hr hs ha).symm.trans h)
      exact runInv_takeBypass hinv hs ha
    · obtain ⟨hsp, -⟩ := hinv.stepping hs ha
      obtain rfl := Host.Outcome.next.inj ((stepWith_exec hr hs ha hsp).symm.trans h)
      exact runInv_retire hinv hs ha
  · obtain rfl := Host.Outcome.next.inj ((stepWith_quiet hr hs (hnostart.resolve_left hs)).symm.trans h)
    exact hinv

end Sys2Proof.Machine

open Sys2Proof Sys2Proof.Machine

/-- Settles O46: the reset state is outside a run, with an empty table (log 2, log 4, log 5). -/
theorem resetStateIsIdle : Obligations.ResetStateIsIdle := by
  unfold Obligations.ResetStateIsIdle
  exact ⟨rfl, rfl, rfl, inv_reset⟩

/-- Settles O47: each of the five transitions keeps the invariant (R26, R90). -/
theorem stepKeepsTheInvariant : Obligations.StepKeepsTheInvariant := by
  unfold Obligations.StepKeepsTheInvariant
  exact ⟨fun _ _ _ => inv_stepWith, fun _ _ => inv_stepWith⟩

/-- Settles O48: no move changes a register, and the two table moves keep the canonical form. -/
theorem hostMovesKeepTheInvariant : Obligations.HostMovesKeepTheInvariant := by
  unfold Obligations.HostMovesKeepTheInvariant
  exact fun _ _ _ => inv_hostMove

/-- Settles O49: the invariant shuts out the one state in which the fetch could leave the table (R32). -/
theorem theEngineNeverStops : Obligations.TheEngineNeverStops := by
  unfold Obligations.TheEngineNeverStops
  exact fun opc _ hinv => stepWith_answers opc hinv.stepSp

/-- Settles O50: START sets `v_0`, EXEC turns `v_i` into `v_(i+1)`, BYPASS complements the seed (R26). -/
theorem runningValueIsTracked : Obligations.RunningValueIsTracked := by
  unfold Obligations.RunningValueIsTracked
  refine ⟨fun opc s t hr hb hs hstep => ?_, fun _ _ _ _ hinv hr hnostart => runInv_stepWith hinv hr hnostart⟩
  obtain rfl := Host.Outcome.next.inj ((stepWith_start hr hs hb).symm.trans hstep)
  exact runInv_takeStart opc s

end

-- ==== The function computed, and the machine against it (rules R33, R82, R84, R91 to R96, R108) ====
section
namespace Sys2Proof.Machine

/-! What the key depends on -/

/-- The running values depend on the bytes of the steps executed so far alone. -/
theorem runningValue_congr {opc : OpcMap} {T T' : Nat → Byte} {a : Byte} (seed : Word) {n : Nat}
    (h : ∀ i k, i < n → k < 3 → T (opAddr a i + k) = T' (opAddr a i + k)) :
    runningValue opc T a seed n = runningValue opc T' a seed n := by
  induction n with
  | zero => rfl
  | succ n ih =>
    have hbyte (k : Nat) (hk : k < 3) : T (opAddr a n + k) = T' (opAddr a n + k) := h n k n.lt_succ_self hk
    have hop : T (opAddr a n) = T' (opAddr a n) := hbyte 0 (by decide)
    have hhh : T (hhAddr a n) = T' (hhAddr a n) := hbyte 1 (by decide)
    have hll : T (llAddr a n) = T' (llAddr a n) := hbyte 2 (by decide)
    rw [runningValue_succ, runningValue_succ, hop, hhh, hll, ih fun i k hi => h i k (Nat.lt_succ_of_lt hi)]

/-- The key depends on the first twelve bytes of blocks 1 to 255 alone (R33). -/
theorem deriveKey_congr {opc : OpcMap} {T T' : Nat → Byte} (seed : Word) (a : Byte)
    (h : ∀ b k : Nat, 1 ≤ b → b < 256 → k < 12 → T (b * 13 + k) = T' (b * 13 + k)) :
    deriveKey opc seed a T = deriveKey opc seed a T' := by
  by_cases ha : a = 0
  · rw [ha, deriveKey_zero, deriveKey_zero]
  · rw [deriveKey_of_ne_zero ha, deriveKey_of_ne_zero ha]
    refine runningValue_congr seed fun i k hi hk => ?_
    have hi4 : i < 4 := hi
    rw [opAddr_eq, Nat.add_assoc]
    exact h a.toNat (i * 3 + k) (Nat.one_le_iff_ne_zero.mpr (byte_toNat_ne_zero ha)) a.isLt (by omega)

theorem deriveKey_congr_of_tblRead {opc : OpcMap} {m m' : Memory} (seed : Word) (a : Byte)
    (h : ∀ x, tblRead m x = tblRead m' x) : deriveKey opc seed a m.byteAt = deriveKey opc seed a m'.byteAt := by
  refine deriveKey_congr seed a fun b k _ hb hk => byteAt_eq_of_tblRead ?_ (h _)
  have hend : b * 13 + k < 3328 := by omega
  exact hend

/-- Steps of unknown opcodes leave the seed. -/
theorem runningValue_of_unknown {opc : OpcMap} {T : Nat → Byte} {a : Byte} (seed : Word) {n : Nat}
    (h : ∀ i, i < n → opc.known (T (opAddr a i)) = false) : runningValue opc T a seed n = seed := by
  induction n with
  | zero => rfl
  | succ n ih =>
    have hunknown := OpcMap.known_eq_false_iff.mp (h n n.lt_succ_self)
    rw [runningValue_succ, execValue_of_unknown hunknown, ih fun i hi => h i (Nat.lt_succ_of_lt hi)]

/-! One transition per stimulus -/

theorem runStimuli_nil (opc : OpcMap) (s : State) : runStimuli opc [] s = .next s := rfl

/-- The state in which the engine takes its transition under a stimulus. -/
def Stimulus.driven (i : Stimulus) (s : State) : State := driveInputs false i.start i.seedIn i.algoIn s

theorem runStimuli_cons {opc : OpcMap} {i : Stimulus} {s t : State} (h : stepWith opc (i.driven s) = .next t)
    (is : List Stimulus) : runStimuli opc (i :: is) s = runStimuli opc is t := by
  have hdrive : act opc (.host (.drive false i.start i.seedIn i.algoIn)) s = .next (i.driven s) := rfl
  have htick : act opc .tick (i.driven s) = .next t := h
  simp only [runStimuli, List.flatMap_cons, Stimulus.actions, List.cons_append, List.nil_append, runActions, hdrive,
    htick]

/-! A run, transition by transition -/

/-- The engine `k` transitions after the START with seed `seed` and algorithm id `a` over the table `mem` (R91). -/
structure RunAt (opc : OpcMap) (seed : Word) (a : Byte) (mem : Memory) (k : Nat) (t : State) : Prop where
  value : RunInv opc seed t
  algoR : t.algoR = a
  mem   : t.mem = mem
  st    : t.st = if k < runLength a then .run else .done
  sp    : t.sp.toNat = if a = 0 then 0 else k

theorem runLength_zero : runLength 0 = 1 := rfl

theorem runLength_of_ne_zero {a : Byte} (h : a ≠ 0) : runLength a = 4 := if_neg h

theorem runLength_pos (a : Byte) : 0 < runLength a := by
  by_cases ha : a = 0
  · rw [ha, runLength_zero]; decide
  · rw [runLength_of_ne_zero ha]; decide

theorem runAt_start (opc : OpcMap) {s : State} (hs : s.st ≠ .run) (seed : Word) (a : Byte) :
    ∃ t, stepWith opc ((⟨true, seed, a⟩ : Stimulus).driven s) = .next t ∧ RunAt opc seed a s.mem 0 t := by
  refine ⟨_, stepWith_start (s := (⟨true, seed, a⟩ : Stimulus).driven s) rfl hs rfl, ?_⟩
  exact ⟨runInv_takeStart opc ((⟨true, seed, a⟩ : Stimulus).driven s), rfl, rfl,
    (if_pos (runLength_pos a)).symm, (ite_self 0).symm⟩

theorem RunInv.driven {opc : OpcMap} {seed : Word} {s : State} (h : RunInv opc seed s) (i : Stimulus) :
    RunInv opc seed (i.driven s) :=
  ⟨h.started, h.bypassing, h.stepping, h.finished⟩

/-- Before its end a run takes one more transition, whatever the inputs other than `rst` are: BYPASS or EXEC. -/
theorem RunAt.step {opc : OpcMap} {seed : Word} {a : Byte} {mem : Memory} {k : Nat} {s : State}
    (h : RunAt opc seed a mem k s) (hk : k < runLength a) (i : Stimulus) :
    ∃ t, stepWith opc (i.driven s) = .next t ∧ RunAt opc seed a mem (k + 1) t := by
  obtain ⟨hvalue, rfl, rfl, hst, hsp⟩ := h
  rw [if_pos hk] at hst
  by_cases ha : s.algoR = 0
  case pos =>
    refine ⟨_, stepWith_bypass (s := i.driven s) rfl hst ha, runInv_takeBypass (hvalue.driven i) hst ha, rfl, rfl,
      ?st, ?sp⟩
    case st =>
      have hover : ¬ k + 1 < runLength s.algoR := by rw [ha, runLength_zero]; omega
      exact (if_neg hover).symm
    case sp => exact hsp.trans ((if_pos ha).trans (if_pos ha).symm)
  case neg =>
    rw [if_neg ha] at hsp
    obtain ⟨hindex, -⟩ := hvalue.stepping hst ha
    refine ⟨_, stepWith_exec (s := i.driven s) rfl hst ha hindex, runInv_retire (hvalue.driven i) hst ha, rfl, rfl,
      ?st, ?sp⟩
    case st =>
      have hlast : s.sp = 3 ↔ ¬ k + 1 < runLength s.algoR := by
        rw [← BitVec.toNat_inj, hsp, runLength_of_ne_zero ha]
        rw [runLength_of_ne_zero ha] at hk
        have hthree : (3 : StepPtr).toNat = 3 := rfl
        omega
      rw [State.retire_st, show (i.driven s).sp = s.sp from rfl]
      simp only [hlast, ite_not]
    case sp => exact (sp_succ_toNat hindex).trans ((congrArg (· + 1) hsp).trans (if_neg ha).symm)

theorem RunAt.run_stimuli {opc : OpcMap} {seed : Word} {a : Byte} {mem : Memory} {k : Nat} {s : State}
    (h : RunAt opc seed a mem k s) (is : List Stimulus) (hlen : k + is.length ≤ runLength a) :
    ∃ t, runStimuli opc is s = .next t ∧ RunAt opc seed a mem (k + is.length) t := by
  induction is generalizing k s with
  | nil => exact ⟨s, runStimuli_nil opc s, h⟩
  | cons i is ih =>
    rw [List.length_cons] at hlen ⊢
    obtain ⟨u, hstep, hu⟩ := h.step (by omega) i
    obtain ⟨t, hrun, ht⟩ := ih hu (by omega)
    exact ⟨t, (runStimuli_cons hstep is).trans hrun, by rwa [Nat.add_comm is.length 1, ← Nat.add_assoc]⟩

/-- START and at most as many transitions as the run takes (R91, R93). -/
theorem run_of_start (opc : OpcMap) {s : State} (hs : s.st ≠ .run) (seed : Word) (a : Byte) {is : List Stimulus}
    (hlen : is.length ≤ runLength a) :
    ∃ t, runStimuli opc (⟨true, seed, a⟩ :: is) s = .next t ∧ RunAt opc seed a s.mem is.length t := by
  obtain ⟨u, hstart, hu⟩ := runAt_start opc hs seed a
  obtain ⟨t, hrun, ht⟩ := hu.run_stimuli is (by rwa [Nat.zero_add])
  exact ⟨t, (runStimuli_cons hstart is).trans hrun, by rwa [Nat.zero_add] at ht⟩

theorem RunAt.finished {opc : OpcMap} {seed : Word} {a : Byte} {mem : Memory} {t : State}
    (h : RunAt opc seed a mem (runLength a) t) :
    t.st = .done ∧ t.acc = deriveKey opc seed a mem.byteAt ∧ t.sp = if a = 0 then 0 else 4 := by
  obtain ⟨hvalue, rfl, rfl, hst, -⟩ := h
  rw [if_neg (Nat.lt_irrefl _)] at hst
  obtain ⟨⟨ha, hsp⟩ | ⟨ha, hsp⟩, hacc⟩ := hvalue.finished hst
  · exact ⟨hst, hacc, hsp.trans (if_pos ha).symm⟩
  · exact ⟨hst, hacc, hsp.trans (if_neg ha).symm⟩

/-! Engines side by side -/

/-- One action on several engines acts on the engine it names, if there is one, and on no other. -/
theorem actAt_cases {opc : OpcMap} {k : Nat} {a : Action} {es fs : List State} (h : actAt opc k a es = .next fs) :
    (es[k]? = none ∧ fs = es) ∨ ∃ s t, es[k]? = some s ∧ act opc a s = .next t ∧ fs = es.set k t := by
  unfold actAt at h
  cases hk : es[k]? with
  | none =>
    simp only [hk] at h
    exact .inl ⟨rfl, (Host.Outcome.next.inj h).symm⟩
  | some s =>
    simp only [hk] at h
    cases hact : act opc a s with
    | next t =>
      simp only [hact] at h
      exact .inr ⟨s, t, rfl, hact, (Host.Outcome.next.inj h).symm⟩
    | fault f => simp [hact] at h
    | refused r => simp [hact] at h

theorem actAt_length {opc : OpcMap} {k : Nat} {a : Action} {es fs : List State} (h : actAt opc k a es = .next fs) :
    fs.length = es.length := by
  obtain ⟨-, rfl⟩ | ⟨s, t, -, -, rfl⟩ := actAt_cases h
  · rfl
  · exact List.length_set

theorem actAt_getElem?_other {opc : OpcMap} {j k : Nat} {a : Action} {es fs : List State}
    (h : actAt opc k a es = .next fs) (hjk : k ≠ j) : fs[j]? = es[j]? := by
  obtain ⟨-, rfl⟩ | ⟨s, t, -, -, rfl⟩ := actAt_cases h
  · rfl
  · exact List.getElem?_set_ne hjk

theorem actAt_getElem?_self {opc : OpcMap} {k : Nat} {a : Action} {es fs : List State} {s : State}
    (h : actAt opc k a es = .next fs) (hs : es[k]? = some s) : ∃ t, act opc a s = .next t ∧ fs[k]? = some t := by
  obtain ⟨hnone, -⟩ | ⟨s', t, hs', hact, rfl⟩ := actAt_cases h
  · exact absurd (hnone.symm.trans hs) nofun
  · obtain rfl : s' = s := Option.some.inj (hs'.symm.trans hs)
    obtain ⟨hlt, -⟩ := List.getElem?_eq_some_iff.mp hs
    exact ⟨t, hact, List.getElem?_set_self hlt⟩

theorem runActions_cons {opc : OpcMap} {a : Action} {s t : State} (h : act opc a s = .next t) (as : List Action) :
    runActions opc (a :: as) s = runActions opc as t := by
  simp only [runActions, h]

theorem runEngines_cons {opc : OpcMap} {k : Nat} {a : Action} {sched : List (Nat × Action)} {es fs : List State}
    (h : runEngines opc ((k, a) :: sched) es = .next fs) :
    ∃ gs, actAt opc k a es = .next gs ∧ runEngines opc sched gs = .next fs := by
  unfold runEngines at h
  cases hact : actAt opc k a es with
  | next gs =>
    simp only [hact] at h
    exact ⟨gs, rfl, h⟩
  | fault f => simp [hact] at h
  | refused r => simp [hact] at h

theorem runEngines_length {opc : OpcMap} {sched : List (Nat × Action)} {es fs : List State}
    (h : runEngines opc sched es = .next fs) : fs.length = es.length := by
  induction sched generalizing es with
  | nil => exact congrArg List.length (Host.Outcome.next.inj h).symm
  | cons entry sched ih =>
    obtain ⟨gs, hact, hrest⟩ := runEngines_cons h
    exact (ih hrest).trans (actAt_length hact)

/-- Engine `j` goes where the actions the interleaving holds for it take it, by induction on the interleaving. -/
theorem runEngines_getElem? {opc : OpcMap} {sched : List (Nat × Action)} {es fs : List State} {j : Nat} {s : State}
    (h : runEngines opc sched es = .next fs) (hs : es[j]? = some s) :
    ∃ t, fs[j]? = some t ∧ runActions opc (actionsOf j sched) s = .next t := by
  induction sched generalizing es s with
  | nil =>
    obtain rfl := Host.Outcome.next.inj h
    exact ⟨s, hs, rfl⟩
  | cons entry sched ih =>
    obtain ⟨k, a⟩ := entry
    obtain ⟨gs, hact, hrest⟩ := runEngines_cons h
    rw [actionsOf]
    split
    case isTrue hkj =>
      subst hkj
      obtain ⟨u, hu, hgs⟩ := actAt_getElem?_self hact hs
      rw [runActions_cons hu]
      exact ih hrest hgs
    case isFalse hkj => exact ih hrest ((actAt_getElem?_other hact hkj).trans hs)

end Sys2Proof.Machine

open Sys2Proof Sys2Proof.Machine

/-- Settles O52: the running values read the three bytes of four steps, none of them a padding byte (R33). -/
theorem unreadBytesDoNotMatter : Obligations.UnreadBytesDoNotMatter := by
  unfold Obligations.UnreadBytesDoNotMatter
  exact fun _ seed a _ _ hagree => deriveKey_congr seed a hagree

/-- Settles O53: each of the four steps leaves the running value (R82). -/
theorem unknownBlockReturnsTheSeed : Obligations.UnknownBlockReturnsTheSeed := by
  unfold Obligations.UnknownBlockReturnsTheSeed
  exact fun opc seed a T ha hunknown =>
    (deriveKey_of_ne_zero ha opc seed T).trans (runningValue_of_unknown seed hunknown)

/-- Settles O54: along the run `acc` is the running value, so at its end it is the key (R26, R91). -/
theorem machineComputesDeriveKey : Obligations.MachineComputesDeriveKey := by
  unfold Obligations.MachineComputesDeriveKey
  intro opc s seed a is hs hlen
  obtain ⟨t, hrun, hat⟩ := run_of_start opc hs seed a hlen.le
  rw [hlen] at hat
  obtain ⟨hst, hacc, hsp⟩ := hat.finished
  exact ⟨t, hrun, hst, hacc, (keyPort_of_done hst).trans hacc, hsp, hat.algoR, hat.mem⟩

/-- Settles O55: before its last transition a run is in RUN (R93). -/
theorem runsEndNoSooner : Obligations.RunsEndNoSooner := by
  unfold Obligations.RunsEndNoSooner
  intro opc s seed a is hs hlen
  obtain ⟨t, hrun, hat⟩ := run_of_start opc hs seed a hlen.le
  have hst : t.st = .run := hat.st.trans (if_pos hlen)
  exact ⟨t, hrun, hst, busy_eq_true_iff.mpr hst, done_eq_false_iff.mpr (by rw [hst]; decide)⟩

/-- Settles O56: both keys are the function's value, which looks at the table through reads alone (R96). -/
theorem equalRunsGiveEqualKeys : Obligations.EqualRunsGiveEqualKeys := by
  unfold Obligations.EqualRunsGiveEqualKeys
  intro opc s s' seed a is is' hs hs' hreads hlen hlen'
  obtain ⟨t, hrun, hst, -, hkey, -⟩ := machineComputesDeriveKey opc s seed a is hs hlen
  obtain ⟨t', hrun', hst', -, hkey', -⟩ := machineComputesDeriveKey opc s' seed a is' hs' hlen'
  exact ⟨t, t', hrun, hrun', hst, hst', hkey.trans ((deriveKey_congr_of_tblRead seed a hreads).trans hkey'.symm)⟩

/-- Settles O57: an action changes the engine it names and no other (R108; D19, log 19). -/
theorem enginesDoNotInteract : Obligations.EnginesDoNotInteract := by
  unfold Obligations.EnginesDoNotInteract
  exact fun _ _ _ _ hrun => ⟨runEngines_length hrun, fun _ _ hs => runEngines_getElem? hrun hs⟩

end

-- ==== The assembler (rules R45, R46, R54, R55) ====
section
namespace Sys2Proof.Machine

/-! Blocks at their stride -/

/-- Lists of `m` elements laid end to end: the `k`-th element of the `i`-th list stands at `i * m + k`. -/
theorem getElem?_flatMap_of_length {α β : Type} {f : α → List β} {m : Nat} (hf : ∀ x, (f x).length = m) {l : List α}
    {i k : Nat} {x : α} (hx : l[i]? = some x) (hk : k < m) : (l.flatMap f)[i * m + k]? = (f x)[k]? := by
  induction l generalizing i with
  | nil => simp at hx
  | cons y l ih =>
    rw [List.flatMap_cons]
    cases i with
    | zero =>
      obtain rfl : y = x := Option.some.inj hx
      rw [Nat.zero_mul, Nat.zero_add, List.getElem?_append_left (by rwa [hf])]
    | succ i =>
      have hoffset : (i + 1) * m + k = m + (i * m + k) := by rw [Nat.succ_mul]; omega
      rw [hoffset, List.getElem?_append_right (by rw [hf]; omega), hf, Nat.add_sub_cancel_left]
      exact ih hx

theorem Line.bytes_length (opc : OpcMap) (l : Line) : (l.bytes opc).length = 3 := by cases l <;> rfl

theorem Block.bytes_length (opc : OpcMap) (b : Block) : (b.bytes opc).length = 13 := by
  simp only [Block.bytes, List.length_append, Line.bytes_length, List.length_singleton]

theorem blockBytes_of_mem {prog : List Block} {b : Block} (hnodup : (prog.map Block.algo).Nodup) (hb : b ∈ prog)
    (opc : OpcMap) : blockBytes opc prog b.algo = b.bytes opc := by
  unfold blockBytes
  cases hfind : prog.find? fun c => c.algo == b.algo with
  | none => simpa using List.find?_eq_none.mp hfind b hb
  | some c =>
    have halgo : c.algo = b.algo := by simpa using List.find?_some hfind
    exact congrArg (Block.bytes opc) (List.inj_on_of_nodup_map hnodup (List.mem_of_find?_eq_some hfind) hb halgo)

theorem blockBytes_of_not_mem {prog : List Block} {a : Byte} (h : ∀ b ∈ prog, b.algo ≠ a) (opc : OpcMap) :
    blockBytes opc prog a = List.replicate Config.stride 0x00 := by
  have hfind : (prog.find? fun b => b.algo == a) = none := List.find?_eq_none.mpr fun b hb => by simpa using h b hb
  simp only [blockBytes, hfind]

theorem blockBytes_length (opc : OpcMap) (prog : List Block) (a : Byte) : (blockBytes opc prog a).length = 13 := by
  unfold blockBytes
  cases prog.find? fun b => b.algo == a with
  | none => exact List.length_replicate
  | some b => exact b.bytes_length opc

/-- The text has one block per id, and the table is the ids' thirteen bytes in ascending order (R46). -/
theorem assemble_eq_some {opc : OpcMap} {prog : List Block} {bytes : List Byte} (h : assemble opc prog = some bytes) :
    (prog.map Block.algo).Nodup ∧ bytes = byteValues.flatMap (blockBytes opc prog) := by
  unfold assemble at h
  split at h
  case isTrue hnodup => exact ⟨hnodup, by rw [byteValues, List.flatMap_map]; exact (Option.some.inj h).symm⟩
  case isFalse => exact absurd h nofun

theorem byteValues_getElem? (a : Byte) : byteValues[a.toNat]? = some a := by
  rw [byteValues, List.getElem?_map, List.getElem?_range a.isLt, Option.map_some, BitVec.ofNat_toNat,
    BitVec.setWidth_eq]

theorem byteValues_flatMap_length {f : Byte → List Byte} (hf : ∀ a, (f a).length = 13) :
    (byteValues.flatMap f).length = 3328 := by
  have hlengths : byteValues.map (fun a => (f a).length) = List.replicate 256 13 := by
    rw [funext hf, List.map_const', byteValues, List.length_map, List.length_range]
  rw [List.length_flatMap, hlengths, List.sum_replicate_nat]

theorem assembled_getElem? (opc : OpcMap) (prog : List Block) (a : Byte) {k : Nat} (hk : k < 13) :
    (byteValues.flatMap (blockBytes opc prog))[a.toNat * 13 + k]? = (blockBytes opc prog a)[k]? :=
  getElem?_flatMap_of_length (blockBytes_length opc prog) (byteValues_getElem? a) hk

/-! Disassembly -/

theorem disassemble_byte {opc : OpcMap} (h : opc.Injective) (n : OpName) (hh ll : Byte) :
    disassemble opc (opc.byte n) hh ll = .known n hh ll := by
  simp only [disassemble, OpcMap.lookup_byte h]

theorem disassemble_of_unknown {opc : OpcMap} {op : Byte} (h : opc.known op = false) (hh ll : Byte) :
    disassemble opc op hh ll = .raw op hh ll := by
  simp only [disassemble, OpcMap.lookup_eq_none.mpr (OpcMap.known_eq_false_iff.mp h)]

theorem bytes_disassemble (opc : OpcMap) (op hh ll : Byte) : (disassemble opc op hh ll).bytes opc = [op, hh, ll] := by
  unfold disassemble
  cases hlookup : opc.lookup op with
  | some n => exact congrArg (fun b => [b, hh, ll]) (OpcMap.byte_of_lookup hlookup)
  | none => rfl

/-! The NOP byte and the pseudo-instructions -/

theorem decode_known_bytes {opc : OpcMap} (h : opc.Injective) (n : OpName) (hh ll : Byte) :
    decode opc ((Line.known n hh ll).bytes opc) = .ok (Instr.ofName n hh ll, []) := by
  rw [← decodeStep_byte h]
  exact decode_cons opc (opc.byte n) hh ll []

theorem decode_raw_bytes_of_unknown {opc : OpcMap} {op : Byte} (h : opc.known op = false) (hh ll : Byte) :
    decode opc ((Line.raw op hh ll).bytes opc) = .ok (.nop op hh ll, []) := by
  rw [← decodeStep_of_unknown (OpcMap.known_eq_false_iff.mp h)]
  exact decode_cons opc op hh ll []

/-- Eleven of the 256 bytes are known, so an unknown one exists (R48). -/
theorem exists_unknown_byte {opc : OpcMap} (h : opc.Injective) : ∃ b : Byte, opc.known b = false := by
  have hpos : 0 < byteValues.countP (fun b => !opc.known b) := by rw [OpcMap.countP_not_known h]; decide
  obtain ⟨b, -, hb⟩ := List.countP_pos_iff.mp hpos
  exact ⟨b, by simpa using hb⟩

/-- The NOP byte is unknown, and every byte below it is known (R55). -/
theorem nopByte_spec {opc : OpcMap} (h : opc.Injective) :
    opc.known (nopByte opc) = false ∧ ∀ b : Byte, b.toNat < (nopByte opc).toNat → opc.known b = true := by
  unfold nopByte
  cases hfind : (List.range 256).find? fun b => !opc.known (BitVec.ofNat 8 b) with
  | none =>
    obtain ⟨b, hb⟩ := exists_unknown_byte h
    simpa [hb] using List.find?_eq_none.mp hfind b.toNat (List.mem_range.mpr b.isLt)
  | some m =>
    obtain ⟨hunknown, hmem, hleast⟩ := List.find?_range_eq_some.mp hfind
    have hm : (BitVec.ofNat 8 m).toNat = m := (BitVec.toNat_ofNat m 8).trans (Nat.mod_eq_of_lt (List.mem_range.mp hmem))
    rw [Option.getD_some, hm]
    exact ⟨by simpa using hunknown, fun b hb => by simpa using hleast b.toNat hb⟩

/-- A mnemonic line decodes to a step that completes with the name's function of `acc`. -/
theorem known_line_effect {opc : OpcMap} (h : opc.Injective) (n : OpName) (hh ll : Byte) (s : State) {v : Word}
    (hv : opOf n s.acc hh ll = v) :
    ∃ i t, decode opc ((Line.known n hh ll).bytes opc) = .ok (i, []) ∧ exec i s = .next t ∧ t.acc = v :=
  ⟨_, _, decode_known_bytes h n hh ll, exec_ofName n hh ll s, hv⟩

end Sys2Proof.Machine

open Sys2Proof Sys2Proof.Machine

/-- Settles O58: 256 lists of thirteen bytes end to end, one for each id (R46, R54). -/
theorem assembledBlocksLieAtTheirStride : Obligations.AssembledBlocksLieAtTheirStride := by
  unfold Obligations.AssembledBlocksLieAtTheirStride
  intro opc prog bytes hassemble
  obtain ⟨hnodup, rfl⟩ := assemble_eq_some hassemble
  refine ⟨byteValues_flatMap_length (blockBytes_length opc prog), fun b hb k hk => ?block, fun a hnone k hk => ?zeros⟩
  case block => rw [assembled_getElem? opc prog b.algo hk, blockBytes_of_mem hnodup hb]
  case zeros =>
    rw [assembled_getElem? opc prog a hk, blockBytes_of_not_mem hnone]
    exact List.getElem?_replicate_of_lt hk

/-- Settles O59: both directions go through the lookup of the opcode byte (R48, R54). -/
theorem disassemblyInvertsAssembly : Obligations.DisassemblyInvertsAssembly := by
  unfold Obligations.DisassemblyInvertsAssembly
  exact fun opc hinj => ⟨bytes_disassemble opc, disassemble_byte hinj, fun _ hh ll hunknown =>
    disassemble_of_unknown hunknown hh ll⟩

/-- Settles O60: each expansion is a mnemonic line whose function has the effect, or a raw line with the smallest unknown
byte (R55). -/
theorem pseudoInstructionsDoWhatTheySay : Obligations.PseudoInstructionsDoWhatTheySay := by
  unfold Obligations.PseudoInstructionsDoWhatTheySay
  intro opc hinj
  obtain ⟨hunknown, hleast⟩ := nopByte_spec hinj
  refine ⟨hunknown, hleast, fun p s => ?_⟩
  cases p with
  | flip => exact known_line_effect hinj .flip 0x00 0x00 s rfl
  | rol n => exact known_line_effect hinj .rol n 0x00 s rfl
  | ror n => exact known_line_effect hinj .ror 0x00 n s rfl
  | not => exact known_line_effect hinj .cpl 0x00 0x00 s (opCpl_of_ge le_rfl s.acc)
  | neg => exact known_line_effect hinj .cpl 0x00 0x01 s (opCpl_of_lt (by decide) s.acc)
  | nop => exact ⟨_, _, decode_raw_bytes_of_unknown hunknown 0x00 0x00, exec_nop _ 0x00 0x00 s, s.retire_acc s.acc⟩

end
